-- ==== Sys2Proof/Word.lean ====
section
/-! DEFINITION. The word types of the model (spec/00_scope.md R5, R8). -/

namespace Sys2Proof

/-- One field `pmp<n>cfg`, or one byte of memory. -/
abbrev Byte := BitVec 8

/-- A container for a value of `xlen()` bits; when `xlen() = 32` bits 63:32 are 0 (notes/assumptions/4.md). -/
abbrev Word := BitVec 64

/-- An instruction, 32 bits (spec/30_encoding.md R64). -/
abbrev InstrWord := BitVec 32

end Sys2Proof
end

