-- ==== Sys2Proof/Syntax.lean ====
section
/-! DEFINITION. The six instructions of spec/opcode_table.json (R64, R66). -/

namespace Sys2Proof

/-- The number of a general register, 0 to 31 (R34). -/
abbrev RegIdx := Fin 32

/-- A CSR address, 12 bits (R60, R64). -/
abbrev CsrAddr := BitVec 12

/-- One constructor per row of the opcode table; `csr` stands between the operands as in R67. -/
inductive Instr where
  | csrrw  (rd : RegIdx) (csr : CsrAddr) (rs1 : RegIdx)
  | csrrs  (rd : RegIdx) (csr : CsrAddr) (rs1 : RegIdx)
  | csrrc  (rd : RegIdx) (csr : CsrAddr) (rs1 : RegIdx)
  | csrrwi (rd : RegIdx) (csr : CsrAddr) (uimm : BitVec 5)
  | csrrsi (rd : RegIdx) (csr : CsrAddr) (uimm : BitVec 5)
  | csrrci (rd : RegIdx) (csr : CsrAddr) (uimm : BitVec 5)
deriving DecidableEq, Repr

/-- The CSR address an instruction names. -/
def Instr.csr : Instr → CsrAddr
  | .csrrw _ c _ | .csrrs _ c _ | .csrrc _ c _ | .csrrwi _ c _ | .csrrsi _ c _ | .csrrci _ c _ => c

/-- The destination register an instruction names. -/
def Instr.rd : Instr → RegIdx
  | .csrrw d _ _ | .csrrs d _ _ | .csrrc d _ _ | .csrrwi d _ _ | .csrrsi d _ _ | .csrrci d _ _ => d

/-! The pseudo-instructions of R67: other spellings of words of the six. -/

def Instr.csrr (rd : RegIdx) (csr : CsrAddr) : Instr := .csrrs rd csr 0
def Instr.csrw (csr : CsrAddr) (rs : RegIdx) : Instr := .csrrw 0 csr rs
def Instr.csrs (csr : CsrAddr) (rs : RegIdx) : Instr := .csrrs 0 csr rs
def Instr.csrc (csr : CsrAddr) (rs : RegIdx) : Instr := .csrrc 0 csr rs
def Instr.csrwi (csr : CsrAddr) (uimm : BitVec 5) : Instr := .csrrwi 0 csr uimm
def Instr.csrsi (csr : CsrAddr) (uimm : BitVec 5) : Instr := .csrrsi 0 csr uimm
def Instr.csrci (csr : CsrAddr) (uimm : BitVec 5) : Instr := .csrrci 0 csr uimm

end Sys2Proof
end

