-- ==== Sys2Proof/WellFormed.lean ====
section
/-! DEFINITION. Which instructions the spec gives a meaning: those that name `pmpcfg4` (R60, R66). Register
numbers and immediates carry their bounds in their types. -/

namespace Sys2Proof

/-- The CSR address of the register (R1, R40, R60). -/
def pmpcfg4Addr : CsrAddr := 0x3a4#12

/-- The instruction names `pmpcfg4`. Any other CSR address is outside the spec (00_scope.md section 3, R66). -/
abbrev Instr.WellFormed (i : Instr) : Prop := i.csr = pmpcfg4Addr

end Sys2Proof
end

