-- ==== Sys2Proof/Decode.lean ====
section
/-! DEFINITION. Decoding and encoding of the six instructions (spec/30_encoding.md R64, R66). Total on any list of
bytes; a word outside the six rows is rejected by name. -/

namespace Sys2Proof

/-- Why a word is not one of the six (R66: "the decoder of a model of `pmpcfg4` alone refuses it by name"). -/
inductive DecodeReject where
  /-- Fewer than four bytes: no CSR instruction is shorter (R64). -/
  | tooShort
  /-- Bits 6:0 are not `1110011` (SYSTEM). -/
  | notSystem (opcode : BitVec 7)
  /-- `funct3` is `000` or `100` under SYSTEM: not a CSR instruction (R66). -/
  | notCsrFunct3 (funct3 : BitVec 3)
deriving DecidableEq, Repr

/-- `opcode` of all six rows (R64). -/
def systemOpcode : BitVec 7 := 0x73#7

/-- A 5-bit field as a register number. -/
def regOfBits (b : BitVec 5) : RegIdx := b.toFin

/-- A register number as a 5-bit field. -/
def bitsOfReg (r : RegIdx) : BitVec 5 := BitVec.ofFin r

/-- Decoding of one 32-bit word by the format of R64: `csr` 31:20, `rs1`/`uimm` 19:15, `funct3` 14:12, `rd` 11:7,
`opcode` 6:0. -/
def decodeWord (w : InstrWord) : Except DecodeReject Instr :=
  let opcode := w.extractLsb' 0 7
  let rd := regOfBits (w.extractLsb' 7 5)
  let funct3 := w.extractLsb' 12 3
  let src := w.extractLsb' 15 5
  let csr := w.extractLsb' 20 12
  if opcode = systemOpcode then
    match funct3.toNat with
    | 1 => .ok (.csrrw rd csr (regOfBits src))
    | 2 => .ok (.csrrs rd csr (regOfBits src))
    | 3 => .ok (.csrrc rd csr (regOfBits src))
    | 5 => .ok (.csrrwi rd csr src)
    | 6 => .ok (.csrrsi rd csr src)
    | 7 => .ok (.csrrci rd csr src)
    | _ => .error (.notCsrFunct3 funct3)
  else .error (.notSystem opcode)

/-- The 32-bit word of four bytes, the first the least significant (little-endian fetch, R64). -/
def wordOfBytes (b0 b1 b2 b3 : Byte) : InstrWord := b3 ++ b2 ++ b1 ++ b0

/-- The four bytes of a word as they stand in memory, the lowest address first (R64). -/
def bytesOfWord (w : InstrWord) : List Byte :=
  [w.extractLsb' 0 8, w.extractLsb' 8 8, w.extractLsb' 16 8, w.extractLsb' 24 8]

/-- Decoding of the instruction at the head of a list of bytes, with the bytes after it. -/
def decode : List Byte → Except DecodeReject (Instr × List Byte)
  | b0 :: b1 :: b2 :: b3 :: rest =>
    match decodeWord (wordOfBytes b0 b1 b2 b3) with
    | .ok i => .ok (i, rest)
    | .error r => .error r
  | _ => .error .tooShort

/-- The word with the five parts of R64 in their places. -/
def assemble (csr : CsrAddr) (src : BitVec 5) (funct3 : BitVec 3) (rd : RegIdx) : InstrWord :=
  csr ++ src ++ funct3 ++ bitsOfReg rd ++ systemOpcode

/-- Encoding, one row of R66 each. -/
def encode : Instr → InstrWord
  | .csrrw rd csr rs1 => assemble csr (bitsOfReg rs1) 0b001#3 rd
  | .csrrs rd csr rs1 => assemble csr (bitsOfReg rs1) 0b010#3 rd
  | .csrrc rd csr rs1 => assemble csr (bitsOfReg rs1) 0b011#3 rd
  | .csrrwi rd csr uimm => assemble csr uimm 0b101#3 rd
  | .csrrsi rd csr uimm => assemble csr uimm 0b110#3 rd
  | .csrrci rd csr uimm => assemble csr uimm 0b111#3 rd

/-- The bits of a table row as a word: bits above `nbits` are 0. -/
def tableWord (nbits w : Nat) : InstrWord := BitVec.ofNat 32 (w % 2 ^ nbits)

/-- What the decoder reads from a word numbered as spec/opcode_table.json numbers it (bit 0 the least significant),
laid out in memory little-endian (R64). -/
def decodeTableWord (nbits w : Nat) : Option Instr :=
  match decode (bytesOfWord (tableWord nbits w)) with
  | .ok (i, _) => some i
  | .error _ => none

end Sys2Proof
end

