-- ==== Sys2Proof/Config.lean ====
section
/-! DEFINITION. Parameters of the model (spec/00_scope.md section 4) and the free values, which have no body. -/

namespace Sys2Proof

/-- The PMP entries this register configures, 16 to 23 (R1, R10). -/
inductive Entry where
  | e16 | e17 | e18 | e19 | e20 | e21 | e22 | e23
deriving DecidableEq, Repr

namespace Entry

/-- The entry's place in the register, `n - 16`. -/
def index : Entry → Nat
  | .e16 => 0 | .e17 => 1 | .e18 => 2 | .e19 => 3
  | .e20 => 4 | .e21 => 5 | .e22 => 6 | .e23 => 7

/-- The entry's number in the spec, 16 to 23. -/
def number (n : Entry) : Nat := 16 + n.index

/-- All eight entries, in order. -/
def all : List Entry := [.e16, .e17, .e18, .e19, .e20, .e21, .e22, .e23]

end Entry

/-- One thing for each of the eight entries, under the names the spec gives the fields (R10). -/
structure PerEntry (α : Type) where
  pmp16cfg : α
  pmp17cfg : α
  pmp18cfg : α
  pmp19cfg : α
  pmp20cfg : α
  pmp21cfg : α
  pmp22cfg : α
  pmp23cfg : α
deriving DecidableEq, Repr

namespace PerEntry

def get {α : Type} (t : PerEntry α) : Entry → α
  | .e16 => t.pmp16cfg | .e17 => t.pmp17cfg | .e18 => t.pmp18cfg | .e19 => t.pmp19cfg
  | .e20 => t.pmp20cfg | .e21 => t.pmp21cfg | .e22 => t.pmp22cfg | .e23 => t.pmp23cfg

def ofFn {α : Type} (f : Entry → α) : PerEntry α :=
  { pmp16cfg := f .e16, pmp17cfg := f .e17, pmp18cfg := f .e18, pmp19cfg := f .e19,
    pmp20cfg := f .e20, pmp21cfg := f .e21, pmp22cfg := f .e22, pmp23cfg := f .e23 }

end PerEntry

/-- The value of `CSR[misa].MXL`: 0 or 1 in the sources' own encoding (R2, R3). -/
inductive Mxl where
  | mxl0 | mxl1
deriving DecidableEq, Repr

/-- Privilege modes. The sources name `M`; R96 names the other two, which no rule tells apart
(PRESUMED, notes/assumptions/15.md). -/
inductive Mode where
  | M | S | U
deriving DecidableEq, Repr

/-- The parameters of R4, R6, R7, R64 and R92: constant for the life of the hart. -/
structure Params where
  /-- `PMP_GRANULARITY` (R6). -/
  granularity : Nat
  /-- `IMPL[n]` (R4). -/
  impl : PerEntry Bool
  /-- `PMP20_XLEN_GUARD` (R7). -/
  pmp20XlenGuard : Bool
  /-- The compressed extension is present (R64). -/
  compressed : Bool
  /-- The hart implements `Smpmp` at version 1.11.0 or later (R1, R92). -/
  smpmp : Bool
deriving DecidableEq, Repr

namespace Config

/-- The value of `PMP_GRANULARITY` of this hart: open (R6, decision D16; notes/assumptions/1.md). -/
opaque pmpGranularity : Nat

/-- `IMPL[n]` of this hart: open (R4, decision D7; notes/assumptions/1.md). -/
opaque impl : Entry → Bool

/-- Whether this hart has the compressed extension: open (R64; notes/assumptions/6.md). -/
opaque compressed : Bool

/-- The default R7 gives `PMP20_XLEN_GUARD`. -/
def pmp20XlenGuard : Bool := true

/-- FREE VALUE. What the `k`-th reset draws for a field (R29, R100; notes/assumptions/3.md). -/
opaque resetDraw : Nat → Entry → Byte

/-- FREE VALUE. `RSV_RESET[n]` at the `k`-th reset (R31; notes/assumptions/3.md). -/
opaque rsvReset : Nat → Entry → BitVec 2

/-- The parameters of this hart. -/
def params : Params :=
  { granularity := pmpGranularity, impl := PerEntry.ofFn impl, pmp20XlenGuard := pmp20XlenGuard,
    compressed := compressed, smpmp := true }

end Config

end Sys2Proof
end

