-- ==== Sys2Proof/Machine/Flags.lean ====
section
/-! DEFINITION. The sub-fields of one field value (R13, R62). There are no condition flags in this hardware (R33): the
flag bits are those of a field. -/

namespace Sys2Proof.Machine

/-- `L`, bit 7 (mask 0x80): the entry is locked (R13, R24). -/
def lBit (v : Byte) : Bool := v.getLsbD 7

/-- `RSV`, bits 6:5 (mask 0x60): reserved (R13, R25). -/
def rsvBits (v : Byte) : BitVec 2 := v.extractLsb' 5 2

/-- `A`, bits 4:3 (mask 0x18): the address-matching mode (R13, R22). -/
def aBits (v : Byte) : BitVec 2 := v.extractLsb' 3 2

/-- `X`, bit 2 (mask 0x04): instruction fetches permitted (R13, R23). -/
def xBit (v : Byte) : Bool := v.getLsbD 2

/-- `W`, bit 1 (mask 0x02): stores and AMOs permitted (R13, R23). -/
def wBit (v : Byte) : Bool := v.getLsbD 1

/-- `R`, bit 0 (mask 0x01): loads permitted (R13, R23). -/
def rBit (v : Byte) : Bool := v.getLsbD 0

/-- The values of `A` (R22, R62). -/
inductive AMode where
  | off | tor | na4 | napot
deriving DecidableEq, Repr

/-- 0 = OFF, 1 = TOR, 2 = NA4, 3 = NAPOT (R22, R62). -/
def aMode (v : Byte) : AMode :=
  if aBits v = 0#2 then .off
  else if aBits v = 1#2 then .tor
  else if aBits v = 2#2 then .na4
  else .napot

end Sys2Proof.Machine
end

