-- ==== Sys2Proof/Machine/Fields.lean ====
section
/-! DEFINITION. What one field takes from a software write and from reset (R3, R28, R29, R31, R61, R72 to R80). -/

namespace Sys2Proof.Machine

/-- `xlen()`: 32 when `MXL = 0`, 64 when `MXL = 1` (R3). -/
def xlen : Mxl → Nat
  | .mxl0 => 32
  | .mxl1 => 64

/-- A value cut to `xlen()` bits, in its 64-bit container. -/
def trunc (m : Mxl) (v : Word) : Word :=
  match m with
  | .mxl0 => (v.setWidth 32).setWidth 64
  | .mxl1 => v

/-- The lowest bit of field `n` in the register, `8(n-16)` (R11). -/
def fieldLsb (n : Entry) : Nat := 8 * n.index

/-- `csr_value.pmp<n>cfg`: bits `8(n-16)+7 : 8(n-16)` (R61). -/
def slice (n : Entry) (v : Word) : Byte := v.extractLsb' (fieldLsb n) 8

/-- The location of field `n` lies inside the `xlen()` bits of the register (R12, R61). -/
def sliceExists (m : Mxl) (n : Entry) : Bool := fieldLsb n + 7 < xlen m

/-- `Legal(v)` (R28). -/
def legal (granularity : Nat) (v : Byte) : Bool :=
  !(!rBit v && wBit v) && (decide (granularity < 2) || aBits v != 2#2)

/-- `Guarded(n)`: fields 21 to 23 always, field 20 when `PMP20_XLEN_GUARD` (R72). -/
def guarded (p : Params) : Entry → Bool
  | .e21 | .e22 | .e23 => true
  | .e20 => p.pmp20XlenGuard
  | .e16 | .e17 | .e18 | .e19 => false

/-- `WriteField(n, old, new)`, the tests in the order and with the masks of R72. -/
def writeField (p : Params) (m : Mxl) (n : Entry) (old new : Byte) : Byte :=
  if p.impl.get n = false then old
  else if guarded p n = true ∧ xlen m ≠ 64 then old
  else if old &&& 0x80#8 ≠ 0x00#8 then old
  else if new &&& 0x01#8 = 0x00#8 ∧ new &&& 0x02#8 = 0x02#8 then old
  else if ¬ (p.granularity < 2 ∨ new &&& 0x18#8 ≠ 0x10#8) then old
  else (new &&& 0x9f#8) ||| (old &&& 0x60#8)

/-- The new value of field `n` in `CsrWrite(v)`: the three cases of R71. -/
def newField (p : Params) (m : Mxl) (n : Entry) (old : Byte) (v : Word) : Byte :=
  if sliceExists m n = true then writeField p m n old (slice n v)
  else if n = .e20 ∧ p.pmp20XlenGuard = false then writeField p m n old 0x00#8
  else old

/-- Every legal value is its own image, and every image is legal: a draw through it is a draw among the legal values
(R29). An illegal raw value has its `A`, `W` and `R` cleared, which makes it legal. -/
def legalise (granularity : Nat) (raw : Byte) : Byte :=
  if legal granularity raw = true then raw else raw &&& 0xe4#8

/-- A field after reset: 0 when not implemented (R27); else the drawn legal value, with bits 6:5 drawn apart
(R29, R31, R100). -/
def resetField (p : Params) (n : Entry) (raw : Byte) (rsv : BitVec 2) : Byte :=
  if p.impl.get n = true then
    (legalise p.granularity raw &&& 0x9f#8) ||| (rsv.setWidth 8 <<< 5)
  else 0x00#8

/-- All eight fields after the `k`-th reset, each from draws of its own (R29, R31, R100). -/
def resetFields (p : Params) (k : Nat) : PerEntry Byte :=
  PerEntry.ofFn fun n => resetField p n (Config.resetDraw k n) (Config.rsvReset k n)

end Sys2Proof.Machine
end

