-- ==== Sys2Proof/Machine/State.lean ====
section
/-! DEFINITION. The state of the machine as plain data, the reasons a step stops, and the state after reset. -/

namespace Sys2Proof.Machine

/-- The kinds of memory access (R42). -/
inductive AccessKind where
  | fetch | load | store | amo
deriving DecidableEq, Repr

/-- Why the machine stops with a fault. -/
inductive Fault where
  /-- `raise IllegalInstruction(instruction bits)` (R91): a CSR instruction naming `pmpcfg4` outside mode `M`. Raised by
  the six meanings, before any effect. Terminal by R94. Safe. -/
  | illegalInstruction (bits : InstrWord)
  /-- `raise AccessFault(kind, addr)` (R46, R90): the entry of this register that governs the access denies it. Raised by
  the fetch and by the moves `pmpEntryCheck` and `transfer`. Terminal by R94. Safe. -/
  | accessFault (kind : AccessKind) (addr : Nat)
  /-- `CsrRead()` or `CsrWrite(v)` asked for as a bare event outside mode `M`: R96 forbids the access and there is no
  instruction whose bits R91 could hand over. Raised by the moves `csrRead` and `csrWrite`. Safe
  (notes/assumptions/12.md). -/
  | accessOutsideM
  /-- The environment's own rules (another entry, or no entry matching) deny the access (R45 leaves them to the
  environment). Raised by the fetch and by the move `transfer`. Safe (notes/assumptions/10.md). -/
  | deniedByEnvironment (kind : AccessKind) (addr : Nat)
  /-- The instruction at `pc` is not aligned as R64 asks. Raised by the fetch. Safe (notes/assumptions/6.md). -/
  | pcMisaligned (addr : Nat)
deriving DecidableEq, Repr

/-- Why the model gives no next state although the hardware did not fault. -/
inductive Refusal where
  /-- An instruction of the table that has no meaning yet: none. Safe. -/
  | notModelled (mnemonic : String)
  /-- The word fetched is none of the six instructions (R66). Raised by the fetch. Safe. -/
  | undecodable (why : DecodeReject)
  /-- A CSR instruction that names another register, which no source describes (00_scope.md section 3, R66). Raised by
  the six meanings. Safe (notes/assumptions/13.md). -/
  | otherCsr (csr : CsrAddr)
  /-- The hart does not implement `Smpmp` 1.11.0 or later (R92). Raised by `step` and by the six meanings. Safe
  (notes/assumptions/14.md). -/
  | smpmpAbsent
  /-- No instruction stands at `pc`: the straight-line sequence is exhausted and the run has ended (R105). Raised by the
  fetch. Safe (notes/assumptions/7.md). -/
  | endOfRun (addr : Nat)
deriving DecidableEq, Repr

/-- What decides an access, once something does (R45). MODEL'S CHOICE (notes/assumptions/24.md): the environment's verdict
on an access that no entry of this register governs is one Bool for its address and length, the same for every access
kind and every mode, as long as the row stands. -/
inductive Governor where
  /-- Entry `n` of this register. -/
  | entry (n : Entry)
  /-- The environment: an entry of another register, or its rule for an access no entry matches
  (notes/assumptions/24.md). -/
  | environment (allows : Bool)
deriving DecidableEq, Repr

/-- One row of the inputs `Matches` and `Governing` (R44, R45): this governor matches the access of `len` bytes at
`addr`. Of several rows for one access the first that holds governs. -/
structure MatchRow where
  addr : Nat
  len : Nat
  governor : Governor
deriving DecidableEq, Repr

/-- The inputs R34 and R101 leave to the environment. -/
structure HartInputs where
  mode : Mode
  mxl : Mxl
  pc : Word
  /-- `x[1]` to `x[31]`. -/
  x : Vector Word 31
deriving DecidableEq, Repr

/-- One memory access of the surrounding hart (R42); stores and AMOs carry the bytes they write. -/
inductive Transfer where
  | fetch (addr len : Nat)
  | load (addr len : Nat)
  | store (addr : Nat) (data : List Byte)
  | amo (addr : Nat) (data : List Byte)
deriving DecidableEq, Repr

/-- Who acts next, and how (R9 (1), R105; notes/assumptions/9.md). -/
inductive Move where
  /-- The hart runs the instruction at `pc`. -/
  | instruction
  /-- Reset (R100), with the values of everything outside the register as inputs (R101). -/
  | reset (i : HartInputs)
  /-- The surrounding hart does something outside the spec, after which its mode, `MXL`, `pc` and registers are these
  (R2, R34). -/
  | hart (i : HartInputs)
  /-- The event `CsrRead()` (R70, R105). -/
  | csrRead
  /-- The event `CsrWrite(v)` (R71, R105). -/
  | csrWrite (v : Word)
  /-- The event `PmpEntryCheck(n, kind, mode, addr)` (R46, R105). -/
  | pmpEntryCheck (n : Entry) (kind : AccessKind) (mode : Mode) (addr : Nat)
  /-- A memory access of the surrounding hart (R42, R46). -/
  | transfer (t : Transfer)
  /-- The environment supplies `Matches` and `Governing` anew (R44, R45). -/
  | matching (rows : List MatchRow)
deriving DecidableEq, Repr

/-- Memory of the environment: bytes by address, strictly rising; an unlisted address has no value
(notes/assumptions/7.md). -/
abbrev Memory := List Host.Cell

/-- The state. INVENTORY.md lists every field with its rule and its reset value. -/
structure State where
  /-- Parameters of the hart (R4, R6, R7, R64, R92); no step changes them. -/
  params : Params
  /-- The stored fields `F[16]` to `F[23]` (R10). -/
  pmpcfg4 : PerEntry Byte
  /-- The current privilege mode (R8, R34). -/
  mode : Mode
  /-- `CSR[misa].MXL` (R2). -/
  mxl : Mxl
  /-- The program counter (R34). -/
  pc : Word
  /-- `x[1]` to `x[31]` (R34). -/
  x : Vector Word 31
  /-- The environment's memory (R49, R64). -/
  memory : Memory
  /-- The inputs `Matches` and `Governing` (R44, R45). -/
  matchRows : List MatchRow
  /-- The moves to come; empty: the hart runs its next instruction (R105). -/
  moves : List Move
  /-- MODEL'S OWN: the number of the next draw of reset (R100). -/
  draws : Nat
  /-- MODEL'S OWN: what the last `CsrRead()` event returned (R70, R105). -/
  lastRead : Option Word
deriving DecidableEq, Repr

/-- The machine right after reset: the fields drawn (R29, R31, R100), everything outside the register as
notes/assumptions/2.md names it (R101 gives it no value). MODEL'S CHOICE (notes/assumptions/22.md): no row of Matches and
Governing stands, and no move is listed, so that from here only instructions run and nothing governs an access. -/
def State.reset : State :=
  { params := Config.params
    pmpcfg4 := resetFields Config.params 0
    mode := .M
    mxl := .mxl1
    pc := 0#64
    x := Vector.replicate 31 0#64
    memory := []
    matchRows := []
    moves := []
    draws := 1
    lastRead := none }

end Sys2Proof.Machine
end

