-- ==== Sys2Proof/Machine/Memory.lean ====
section
/-! DEFINITION. The environment's memory as a list of cells in one canonical form (R49, R64;
notes/assumptions/7.md). -/

namespace Sys2Proof.Machine

/-- The canonical form: addresses strictly rising (an unlisted address has no value, so no entry can equal it). -/
abbrev Memory.wf (m : Memory) : Prop := m.Pairwise fun a b => a.1 < b.1

/-- The byte at an address, if one was ever written. -/
def Memory.read : Memory → Nat → Option Byte
  | [], _ => none
  | (b, v) :: rest, a => if a = b then some v else Memory.read rest a

/-- Memory with the byte at `a` set. -/
def Memory.write : Memory → Nat → Byte → Memory
  | [], a, v => [(a, v)]
  | (b, u) :: rest, a, v =>
    if a < b then (a, v) :: (b, u) :: rest
    else if a = b then (a, v) :: rest
    else (b, u) :: Memory.write rest a v

/-- Bytes written from `a` upwards, the first at `a`. -/
def Memory.writeBytes : Memory → Nat → List Byte → Memory
  | m, _, [] => m
  | m, a, v :: vs => Memory.writeBytes (m.write a v) (a + 1) vs

end Sys2Proof.Machine
end

