-- ==== Sys2Proof/Machine/Ops.lean ====
section
/-! DEFINITION. The named operations the meanings and the moves are built from: the register (R70, R71), the general
registers and `pc` (R34, R89), the PMP check (R42 to R47), raising an exception (R94), reset and the environment's
moves (R100, R101). -/

namespace Sys2Proof.Machine

/-- What every meaning answers with. -/
abbrev Result := Host.Outcome State Fault Refusal

/-! ### The register -/

/-- `F[n]` as anything may read it: 0 for a field that is not implemented (R27), else the stored value (R70). -/
def field (s : State) (n : Entry) : Byte :=
  if s.params.impl.get n = true then s.pmpcfg4.get n else 0x00#8

/-- `CsrRead()` (R70): the fields at their locations, `xlen()` bits, in a 64-bit container. -/
def csrRead (s : State) : Word :=
  match s.mxl with
  | .mxl1 =>
    (field s .e23 ++ field s .e22 ++ field s .e21 ++ field s .e20 ++
      field s .e19 ++ field s .e18 ++ field s .e17 ++ field s .e16 : BitVec (8 + 8 + 8 + 8 + 8 + 8 + 8 + 8))
  | .mxl0 =>
    (field s .e19 ++ field s .e18 ++ field s .e17 ++ field s .e16 : BitVec (8 + 8 + 8 + 8)).setWidth 64

/-- `CsrWrite(v)` (R71): every field from the state before the write. -/
def csrWrite (s : State) (v : Word) : State :=
  { s with pmpcfg4 := PerEntry.ofFn fun n => newField s.params s.mxl n (s.pmpcfg4.get n) v }

/-! ### The general registers and the program counter -/

/-- `x[i]`: `x[0]` reads 0 (R8, R34), any other register its `xlen()` bits. -/
def readX (s : State) (i : RegIdx) : Word :=
  if h : i.val = 0 then 0#64 else trunc s.mxl (s.x[i.val - 1]'(by omega))

/-- The register file with `x[i]` set; a write to `x[0]` is dropped (R8, R34). -/
def setReg (x : Vector Word 31) (i : RegIdx) (v : Word) : Vector Word 31 :=
  if h : i.val = 0 then x else x.set (i.val - 1) v (by omega)

/-- A function on every register of the file. -/
def mapRegs (f : Word → Word) (x : Vector Word 31) : Vector Word 31 :=
  ⟨⟨x.toArray.toList.map f⟩, by simp⟩

/-- `x[i] <- v`. -/
def writeX (s : State) (i : RegIdx) (v : Word) : State :=
  { s with x := setReg s.x i (trunc s.mxl v) }

/-- `pc <- pc + 4` (R89), within `xlen()` bits (notes/assumptions/5.md). -/
def advancePc (s : State) : State :=
  { s with pc := trunc s.mxl (s.pc + 4#64) }

/-! ### Taking an exception -/

/-- `raise E(info)` (R94): the instruction or access has no effect, and the exception is handed to the environment. The
spec gives no entry and no return, and takes a raise as the terminal outcome of the step (R94, R105, D12). -/
def raise (e : Fault) : Result := .fault e

/-- The cause code the spec records for an exception of the architecture (R90, R91; general knowledge there). -/
def causeCode : Fault → Option Nat
  | .illegalInstruction _ => some 2
  | .accessFault .fetch _ => some 1
  | .accessFault .load _ => some 5
  | .accessFault .store _ => some 7
  | .accessFault .amo _ => some 7
  | .accessOutsideM | .deniedByEnvironment _ _ | .pcMisaligned _ => none

/-! ### The PMP check -/

/-- What a check says of an access. -/
inductive Verdict where
  | allowed
  | raises (f : Fault)
deriving DecidableEq, Repr

/-- The permission bit that governs an access kind (R42). -/
def permits (f : Byte) : AccessKind → Bool
  | .fetch => xBit f
  | .load => rBit f
  | .store => wBit f
  | .amo => wBit f

/-- `PmpEntryCheck(n, kind, mode, addr)` (R46), for an entry that governs the access. It reads the fields and writes
none. -/
def pmpEntryCheck (s : State) (n : Entry) (kind : AccessKind) (mode : Mode) (addr : Nat) : Verdict :=
  if mode = .M ∧ lBit (field s n) = false then .allowed
  else if permits (field s n) kind = true then .allowed
  else .raises (.accessFault kind addr)

/-- The check for an entry the environment names: with `A = OFF` the entry matches no access and nothing is checked
(R44, R47). -/
def entryVerdict (s : State) (n : Entry) (kind : AccessKind) (mode : Mode) (addr : Nat) : Verdict :=
  if aMode (field s n) = .off then .allowed else pmpEntryCheck s n kind mode addr

/-- Whether a governor can match at all: an entry with `A = OFF` matches nothing (R44, R47). -/
def governorHolds (s : State) : Governor → Bool
  | .entry n => aMode (field s n) != .off
  | .environment _ => true

/-- `Matches(n, addr, len)` (R44), from the environment's rows. -/
def matchesAccess (s : State) (g : Governor) (addr len : Nat) : Bool :=
  governorHolds s g && s.matchRows.contains ⟨addr, len, g⟩

/-- `Governing(addr, len)` (R45): the first of the environment's rows that matches the access. -/
def governing (s : State) (addr len : Nat) : Option Governor :=
  (s.matchRows.find? fun r => r.addr == addr && r.len == len && governorHolds s r.governor).map (·.governor)

/-- The check that stands before every access (R46). An access that nothing governs is not denied by this register
(notes/assumptions/10.md). -/
def gate (s : State) (kind : AccessKind) (mode : Mode) (addr len : Nat) : Verdict :=
  match governing s addr len with
  | some (.entry n) => pmpEntryCheck s n kind mode addr
  | some (.environment false) => .raises (.deniedByEnvironment kind addr)
  | some (.environment true) => .allowed
  | none => .allowed

/-! ### Reset and the environment's moves -/

/-- The state with the hart outside the register as given (R34, R101), within `xlen()` bits (notes/assumptions/4.md,
5.md). -/
def setHart (s : State) (i : HartInputs) : State :=
  { s with mode := i.mode, mxl := i.mxl, pc := trunc i.mxl i.pc, x := mapRegs (trunc i.mxl) i.x }

/-- Reset of the register (R100): every field from a fresh draw, and nothing else of the register. -/
def resetRegister (s : State) : State :=
  { s with pmpcfg4 := resetFields s.params s.draws, draws := s.draws + 1 }

/-- The state with these moves to come. -/
def setMoves (s : State) (ms : List Move) : State := { s with moves := ms }

/-- The state with these rows of `Matches` and `Governing` (R44, R45). -/
def setMatchRows (s : State) (rows : List MatchRow) : State := { s with matchRows := rows }

/-- The state that remembers what `CsrRead()` returned (R70). -/
def setLastRead (s : State) (v : Word) : State := { s with lastRead := some v }

/-- The state with these bytes stored by the surrounding hart (R46: `MemWrite`). MODEL'S CHOICE
(notes/assumptions/21.md): one memory serves stores and fetches, so the very next fetch reads the bytes stored; R50 finds
no rule on instruction-fetch coherence. -/
def storeBytes (s : State) (addr : Nat) (data : List Byte) : State :=
  { s with memory := s.memory.writeBytes addr data }

end Sys2Proof.Machine
end

