-- ==== Sys2Proof/Machine/Operands.lean ====
section
/-! DEFINITION. The operand forms of the six instructions: what value each offers to `CsrWrite`, if any (R65, R82 to
R87). -/

namespace Sys2Proof.Machine

/-- The unsigned immediate, zero-extended (R65). -/
def uimmValue (u : BitVec 5) : Word := u.setWidth 64

/-- `csrrw`: the whole of `x[rs1]`, always (R82). -/
def offerSwap (s : State) (rs1 : RegIdx) : Option Word := some (readX s rs1)

/-- `csrrs`: the old value with the bits of `x[rs1]` set; no write when the register number is 0 (R83). -/
def offerSet (s : State) (rs1 : RegIdx) : Option Word :=
  if rs1.val = 0 then none else some (csrRead s ||| readX s rs1)

/-- `csrrc`: the old value with the bits of `x[rs1]` cleared; no write when the register number is 0 (R84). -/
def offerClear (s : State) (rs1 : RegIdx) : Option Word :=
  if rs1.val = 0 then none else some (csrRead s &&& ~~~ readX s rs1)

/-- `csrrwi`: the immediate, always (R85). -/
def offerSwapImm (u : BitVec 5) : Option Word := some (uimmValue u)

/-- `csrrsi`: the old value with the bits of the immediate set; no write when it is 0 (R86). -/
def offerSetImm (s : State) (u : BitVec 5) : Option Word :=
  if u = 0#5 then none else some (csrRead s ||| uimmValue u)

/-- `csrrci`: the old value with the bits of the immediate cleared; no write when it is 0 (R87). -/
def offerClearImm (s : State) (u : BitVec 5) : Option Word :=
  if u = 0#5 then none else some (csrRead s &&& ~~~ uimmValue u)

/-- What an instruction offers to `CsrWrite` (R82 to R87). -/
def offerOf (i : Instr) (s : State) : Option Word :=
  match i with
  | .csrrw _ _ rs1 => offerSwap s rs1
  | .csrrs _ _ rs1 => offerSet s rs1
  | .csrrc _ _ rs1 => offerClear s rs1
  | .csrrwi _ _ u => offerSwapImm u
  | .csrrsi _ _ u => offerSetImm s u
  | .csrrci _ _ u => offerClearImm s u

/-- The write of what an operand form offers. -/
def writeOffer (s : State) : Option Word → State
  | none => s
  | some v => csrWrite s v

end Sys2Proof.Machine
end

