-- ==== Sys2Proof/Machine/CsrAccess.lean ====
section
/-! DEFINITION. The one instruction family: the six CSR instructions (spec/40_csr_access.md R82 to R87). -/

namespace Sys2Proof.Machine

/-- What the six have in common once they may run: the old value of the register is read, the offered value (taken from
the state before the instruction) is written, the old value goes to `rd`, `pc` advances (R82 to R87, R89). -/
def csrUpdate (s : State) (rd : RegIdx) (offer : Option Word) : State :=
  advancePc (writeX (writeOffer s offer) rd (csrRead s))

/-- When a CSR instruction may run: on a hart with `Smpmp` (R92), naming `pmpcfg4` (R66), in mode `M`; in any other
mode it raises IllegalInstruction with its own bits before any effect (R91). -/
def csrAccess (i : Instr) (s : State) (done : State) : Result :=
  if s.params.smpmp = false then .refused .smpmpAbsent
  else if i.csr ≠ pmpcfg4Addr then .refused (.otherCsr i.csr)
  else if s.mode ≠ .M then raise (.illegalInstruction (encode i))
  else .next done

/-- `csrrw rd, csr, rs1` (R82). -/
def execCsrrw (rd : RegIdx) (csr : CsrAddr) (rs1 : RegIdx) (s : State) : Result :=
  csrAccess (.csrrw rd csr rs1) s (csrUpdate s rd (offerSwap s rs1))

/-- `csrrs rd, csr, rs1` (R83). -/
def execCsrrs (rd : RegIdx) (csr : CsrAddr) (rs1 : RegIdx) (s : State) : Result :=
  csrAccess (.csrrs rd csr rs1) s (csrUpdate s rd (offerSet s rs1))

/-- `csrrc rd, csr, rs1` (R84). -/
def execCsrrc (rd : RegIdx) (csr : CsrAddr) (rs1 : RegIdx) (s : State) : Result :=
  csrAccess (.csrrc rd csr rs1) s (csrUpdate s rd (offerClear s rs1))

/-- `csrrwi rd, csr, uimm` (R85). -/
def execCsrrwi (rd : RegIdx) (csr : CsrAddr) (uimm : BitVec 5) (s : State) : Result :=
  csrAccess (.csrrwi rd csr uimm) s (csrUpdate s rd (offerSwapImm uimm))

/-- `csrrsi rd, csr, uimm` (R86). -/
def execCsrrsi (rd : RegIdx) (csr : CsrAddr) (uimm : BitVec 5) (s : State) : Result :=
  csrAccess (.csrrsi rd csr uimm) s (csrUpdate s rd (offerSetImm s uimm))

/-- `csrrci rd, csr, uimm` (R87). -/
def execCsrrci (rd : RegIdx) (csr : CsrAddr) (uimm : BitVec 5) (s : State) : Result :=
  csrAccess (.csrrci rd csr uimm) s (csrUpdate s rd (offerClearImm s uimm))

end Sys2Proof.Machine
end

