-- ==== Sys2Proof/Machine/Events.lean ====
section
/-! DEFINITION. The moves other than the instruction (R9 (1), R100, R105), each applied to a state whose own move has
been taken off its list. -/

namespace Sys2Proof.Machine

/-- A verdict as an outcome: an access that is allowed goes on to `done`, one that is not raises (R46, R94). -/
def settle (v : Verdict) (done : State) : Result :=
  match v with
  | .allowed => .next done
  | .raises f => raise f

/-- Reset (R100), the hart outside the register as the environment gives it (R101). MODEL'S CHOICE
(notes/assumptions/19.md): the environment's memory, its rows of Matches and Governing, `lastRead` and the moves still
to come stay as they are. -/
def moveReset (i : HartInputs) (s : State) : Result := .next (setHart (resetRegister s) i)

/-- The surrounding hart changes its own mode, `MXL`, `pc` and registers; no field changes (R2, R10, R32, R94). -/
def moveHart (i : HartInputs) (s : State) : Result := .next (setHart s i)

/-- `CsrRead()` as an event (R70, R105), in mode `M` (R96). -/
def moveCsrRead (s : State) : Result :=
  if s.mode = .M then .next (setLastRead s (csrRead s)) else raise .accessOutsideM

/-- `CsrWrite(v)` as an event (R71, R105), in mode `M` (R96). -/
def moveCsrWrite (v : Word) (s : State) : Result :=
  if s.mode = .M then .next (csrWrite s v) else raise .accessOutsideM

/-- `PmpEntryCheck(n, kind, mode, addr)` as an event (R46, R47, R105); with `A = OFF` no check is made
(notes/assumptions/10.md). -/
def movePmpEntryCheck (n : Entry) (kind : AccessKind) (mode : Mode) (addr : Nat) (s : State) : Result :=
  settle (entryVerdict s n kind mode addr) s

/-- A memory access of the surrounding hart in its current mode: the check, then the access (R42, R46). -/
def moveTransfer (t : Transfer) (s : State) : Result :=
  match t with
  | .fetch addr len => settle (gate s .fetch s.mode addr len) s
  | .load addr len => settle (gate s .load s.mode addr len) s
  | .store addr data => settle (gate s .store s.mode addr data.length) (storeBytes s addr data)
  | .amo addr data => settle (gate s .amo s.mode addr data.length) (storeBytes s addr data)

/-- The environment gives `Matches` and `Governing` anew (R44, R45). -/
def moveMatching (rows : List MatchRow) (s : State) : Result := .next (setMatchRows s rows)

end Sys2Proof.Machine
end

