-- ==== Sys2Proof/Machine/Fetch.lean ====
section
/-! DEFINITION. Fetching the instruction at `pc`: alignment (R64), the PMP check of the fetch (R46), the bytes, the
decoder (R66). Also the placing of a word where the next fetch finds it. -/

namespace Sys2Proof.Machine

/-- The address of the `k`-th byte of the instruction at `pc`, within `xlen()` bits (notes/assumptions/5.md). -/
def fetchAddr (s : State) (k : Nat) : Nat := (trunc s.mxl (s.pc + BitVec.ofNat 64 k)).toNat

/-- R64: on a 4-byte boundary, or a 2-byte one when the compressed extension is present. -/
def pcAligned (s : State) : Bool :=
  fetchAddr s 0 % 4 == 0 || (s.params.compressed && fetchAddr s 0 % 2 == 0)

/-- The four bytes of the instruction at `pc`, if all have been written. -/
def fetchBytes (s : State) : Option (List Byte) :=
  match s.memory.read (fetchAddr s 0), s.memory.read (fetchAddr s 1), s.memory.read (fetchAddr s 2),
    s.memory.read (fetchAddr s 3) with
  | some b0, some b1, some b2, some b3 => some [b0, b1, b2, b3]
  | _, _, _, _ => none

/-- What a fetch gives. -/
inductive Fetched where
  | instr (i : Instr)
  | fault (f : Fault)
  | refused (r : Refusal)
deriving DecidableEq, Repr

/-- The fetch. An Access Fault on it comes before any decoding (R93). MODEL'S CHOICES: it is one access of 4 bytes at
`pc`, also on a 2-byte boundary, with `pc` as the fault address (notes/assumptions/20.md); alignment is looked at first
(notes/assumptions/6.md); an exhausted sequence shows only after both tests, at the first unwritten byte
(notes/assumptions/7.md, 23.md). -/
def fetch (s : State) : Fetched :=
  if pcAligned s = true then
    match gate s .fetch s.mode (fetchAddr s 0) 4 with
    | .raises f => .fault f
    | .allowed =>
      match fetchBytes s with
      | none => .refused (.endOfRun (fetchAddr s 0))
      | some bs =>
        match decode bs with
        | .ok (i, _) => .instr i
        | .error r => .refused (.undecodable r)
  else .fault (.pcMisaligned (fetchAddr s 0))

/-- `pc` itself where it is aligned, else the 4-byte boundary below it. -/
def fetchablePc (s : State) : Word :=
  if pcAligned s = true then s.pc else s.pc &&& ~~~ 3#64

/-- Rows that say nothing of the fetch of four bytes at `addr`. -/
def rowsWithoutFetch (rows : List MatchRow) (addr : Nat) : List MatchRow :=
  rows.filter fun r => !(r.addr == addr && r.len == 4)

/-- Memory with a word's four bytes where the fetch at `pc` reads them. -/
def placeWord (s : State) (w : InstrWord) : Memory :=
  (((s.memory.write (fetchAddr s 0) (w.extractLsb' 0 8)).write (fetchAddr s 1) (w.extractLsb' 8 8)).write
    (fetchAddr s 2) (w.extractLsb' 16 8)).write (fetchAddr s 3) (w.extractLsb' 24 8)

/-- The state whose next fetch reads `w`: the word in memory at an aligned `pc`, the hart to move next, and no row that
governs that fetch (notes/assumptions/8.md). -/
def withWordAtPc (s : State) (w : InstrWord) : State :=
  let s1 := { s with pc := fetchablePc s, moves := [] }
  { s1 with memory := placeWord s1 w, matchRows := rowsWithoutFetch s.matchRows (fetchAddr s1 0) }

end Sys2Proof.Machine
end

