-- ==== Sys2Proof/Machine/Step.lean ====
section
/-! DEFINITION. One step of the machine: the next move, and with no move listed the instruction at `pc`. -/

namespace Sys2Proof.Machine

/-- The hart runs the instruction at `pc`. -/
def hartStep (s : State) : Host.Outcome State Fault Refusal :=
  match fetch s with
  | .instr i => exec i s
  | .fault f => raise f
  | .refused r => .refused r

/-- One move (R105). -/
def doMove (m : Move) (s : State) : Host.Outcome State Fault Refusal :=
  match m with
  | .instruction => hartStep s
  | .reset i => moveReset i s
  | .hart i => moveHart i s
  | .csrRead => moveCsrRead s
  | .csrWrite v => moveCsrWrite v s
  | .pmpEntryCheck n kind mode addr => movePmpEntryCheck n kind mode addr s
  | .transfer t => moveTransfer t s
  | .matching rows => moveMatching rows s

/-- The move that comes next: the first of the list, or the hart's instruction when none is listed. -/
def nextMove (s : State) : Move := s.moves.headD .instruction

/-- One step. The model is of a hart with `Smpmp` 1.11.0 or later and refuses any other (R92). -/
def step (s : State) : Host.Outcome State Fault Refusal :=
  if s.params.smpmp = true then doMove (nextMove s) (setMoves s s.moves.tail)
  else .refused .smpmpAbsent

/-- `s` with a table word stored where `step` fetches its next instruction (notes/assumptions/8.md). -/
def State.withFetchWord (s : State) (nbits w : Nat) : State := withWordAtPc s (tableWord nbits w)

end Sys2Proof.Machine
end

