-- ==== Sys2Proof/Safety.lean ====
section
/-! DEFINITION. What a good state is, and the words the statements use about a run. -/

namespace Sys2Proof.Machine

/-- Every implemented field holds a legal value (R30 (a)). -/
def FieldsLegal (s : State) : Prop :=
  ∀ n, s.params.impl.get n = true → legal s.params.granularity (s.pmpcfg4.get n) = true

/-- Every field that is not implemented holds 0 (R27). -/
def ReadOnlyZero (s : State) : Prop :=
  ∀ n, s.params.impl.get n = false → s.pmpcfg4.get n = 0x00#8

/-- `pc` and the general registers are `xlen()` bits wide (R34). -/
def FitsXlen (s : State) : Prop :=
  trunc s.mxl s.pc = s.pc ∧ ∀ v ∈ s.x.toList, trunc s.mxl v = v

/-- The invariant of the machine. -/
structure Inv (s : State) : Prop where
  legal : FieldsLegal s
  readOnly : ReadOnlyZero s
  fits : FitsXlen s
  memory : s.memory.wf

/-- A CSR instruction on `pmpcfg4` executes normally: the hart has `Smpmp` (R92) and is in mode `M` (R91). -/
def CsrReady (s : State) : Prop := s.params.smpmp = true ∧ s.mode = .M

/-- The configuration D1 describes (00_scope.md section 5). -/
def IsCfgD1 (s : State) : Prop :=
  s.mxl = .mxl1 ∧ (∀ n, s.params.impl.get n = false) ∧ 2 ≤ s.params.granularity

/-- The next move is not a reset. -/
def NoReset (s : State) : Prop := ∀ i, nextMove s ≠ .reset i

/-- The eight write functions as D0 prints them (R73 to R80): the guard `xlen() == 64` on fields 21 to 23 alone, and the
whole of the new value stored. The model departs from it in bits 6:5 and, at `xlen() = 32`, in `pmp20cfg`
(90_conflicts.md C6, C7). -/
def sourceWrite (granularity : Nat) (m : Mxl) (n : Entry) (old new : Byte) : Byte :=
  if (n = .e21 ∨ n = .e22 ∨ n = .e23) → xlen m = 64 then
    if old &&& 0x80#8 = 0x00#8 then
      if ¬ (new &&& 0x01#8 = 0x00#8 ∧ new &&& 0x02#8 = 0x02#8) then
        if granularity < 2 ∨ new &&& 0x18#8 ≠ 0x10#8 then new else old
      else old
    else old
  else old

/-- The parts of a field stand at these bits of a register value: `L`, the lower bit of the reserved pair, the lower bit
of `A`, `X`, `W`, `R` (R14 to R21). -/
def PartsAt (v : Word) (f : Byte) (l rsv a x w r : Nat) : Prop :=
  v.getLsbD l = lBit f ∧ v.extractLsb' rsv 2 = rsvBits f ∧ v.extractLsb' a 2 = aBits f ∧ v.getLsbD x = xBit f ∧
    v.getLsbD w = wBit f ∧ v.getLsbD r = rBit f

/-- The move writes memory: a store or an AMO of the surrounding hart. -/
def StoresBytes (m : Move) : Prop := ∃ addr data, m = .transfer (.store addr data) ∨ m = .transfer (.amo addr data)

/-- What no CSR instruction touches: everything but the fields, the general registers and `pc`. -/
structure CsrFrame (s t : State) : Prop where
  params : t.params = s.params
  mode : t.mode = s.mode
  mxl : t.mxl = s.mxl
  memory : ∀ a, t.memory.read a = s.memory.read a
  matchRows : t.matchRows = s.matchRows
  moves : t.moves = s.moves
  draws : t.draws = s.draws
  lastRead : t.lastRead = s.lastRead

/-- What a CSR instruction leaves when it completes: every general register but `rd` as before, `x[rd]` the value read
before the write when `rd` is not `x[0]`, `x[0]` still 0, `pc` advanced by 4 within `xlen()` bits, every field what
`CsrWrite` of the offered value gives it (as before when nothing is offered), everything else untouched. -/
structure CsrDone (s : State) (rd : RegIdx) (offer : Option Word) (t : State) : Prop where
  fields : ∀ n, field t n =
    match offer with
    | none => field s n
    | some v => newField s.params s.mxl n (field s n) v
  target : rd.val ≠ 0 → readX t rd = csrRead s
  others : ∀ j, j ≠ rd → readX t j = readX s j
  zero : readX t 0 = 0#64
  pc : t.pc = trunc s.mxl (s.pc + 4#64)
  frame : CsrFrame s t

end Sys2Proof.Machine
end

