-- ==== Sys2Proof/Certificates/Slice0/Obligations.lean ====
section
/-! DEFINITION. The statements for the provers. -/

open Sys2Proof Sys2Proof.Machine

/-! ### Encoding -/

/-- Decoding the bytes of any encoded instruction gives that instruction back and leaves the bytes after it (R64, R66):
every constructor, every register number, every CSR address, every immediate. -/
def Obligations.DecodeOfEncodeIsTheInstruction : Prop :=
  ∀ (i : Instr) (rest : List Byte), decode (bytesOfWord (encode i) ++ rest) = .ok (i, rest)

/-- A word that decodes to an instruction is that instruction's encoding, so each instruction has one word (R64). -/
def Obligations.EncodeOfDecodeIsTheWord : Prop :=
  ∀ (w : InstrWord) (i : Instr), decodeWord w = .ok i → encode i = w

/-- The mask and match columns of R66, for any CSR and for `pmpcfg4`, pick out exactly the words that decode to each row,
and a word that matches no row is rejected. The spec marks R66 as general knowledge. -/
def Obligations.DecoderAcceptsExactlyTheTableRows : Prop :=
  ∀ w : InstrWord,
    (w &&& 0x0000707f#32 = 0x00001073#32 ↔ ∃ rd csr rs1, decodeWord w = .ok (.csrrw rd csr rs1)) ∧
    (w &&& 0x0000707f#32 = 0x00002073#32 ↔ ∃ rd csr rs1, decodeWord w = .ok (.csrrs rd csr rs1)) ∧
    (w &&& 0x0000707f#32 = 0x00003073#32 ↔ ∃ rd csr rs1, decodeWord w = .ok (.csrrc rd csr rs1)) ∧
    (w &&& 0x0000707f#32 = 0x00005073#32 ↔ ∃ rd csr uimm, decodeWord w = .ok (.csrrwi rd csr uimm)) ∧
    (w &&& 0x0000707f#32 = 0x00006073#32 ↔ ∃ rd csr uimm, decodeWord w = .ok (.csrrsi rd csr uimm)) ∧
    (w &&& 0x0000707f#32 = 0x00007073#32 ↔ ∃ rd csr uimm, decodeWord w = .ok (.csrrci rd csr uimm)) ∧
    (w &&& 0xfff0707f#32 = 0x3a401073#32 ↔ ∃ rd rs1, decodeWord w = .ok (.csrrw rd 0x3a4#12 rs1)) ∧
    (w &&& 0xfff0707f#32 = 0x3a402073#32 ↔ ∃ rd rs1, decodeWord w = .ok (.csrrs rd 0x3a4#12 rs1)) ∧
    (w &&& 0xfff0707f#32 = 0x3a403073#32 ↔ ∃ rd rs1, decodeWord w = .ok (.csrrc rd 0x3a4#12 rs1)) ∧
    (w &&& 0xfff0707f#32 = 0x3a405073#32 ↔ ∃ rd uimm, decodeWord w = .ok (.csrrwi rd 0x3a4#12 uimm)) ∧
    (w &&& 0xfff0707f#32 = 0x3a406073#32 ↔ ∃ rd uimm, decodeWord w = .ok (.csrrsi rd 0x3a4#12 uimm)) ∧
    (w &&& 0xfff0707f#32 = 0x3a407073#32 ↔ ∃ rd uimm, decodeWord w = .ok (.csrrci rd 0x3a4#12 uimm)) ∧
    ((∀ i, decodeWord w ≠ .ok i) ↔
      (w.extractLsb' 0 7 ≠ 0x73#7 ∨ w.extractLsb' 12 3 = 0#3 ∨ w.extractLsb' 12 3 = 4#3))

/-- Words written out in 95_test_vectors.md section 4 decode to what that file says. -/
def Obligations.SpecWordsDecode : Prop :=
  decodeWord 0x3a429373#32 = .ok (.csrrw 6 0x3a4#12 5) ∧
  decodeWord 0x3a4023f3#32 = .ok (.csrrs 7 0x3a4#12 0) ∧
  decodeWord 0x3a42b373#32 = .ok (.csrrc 6 0x3a4#12 5) ∧
  decodeWord 0x3a4fd373#32 = .ok (.csrrwi 6 0x3a4#12 31#5) ∧
  decodeWord 0x3a416373#32 = .ok (.csrrsi 6 0x3a4#12 2#5) ∧
  decodeWord 0x3a4c7073#32 = .ok (.csrrci 0 0x3a4#12 24#5) ∧
  decodeWord 0x3a400073#32 = .error (.notCsrFunct3 0#3) ∧
  decodeWord 0x3a404073#32 = .error (.notCsrFunct3 4#3) ∧
  decodeWord 0x3a429372#32 = .error (.notSystem 0x72#7)

/-! ### The register: read and software write -/

/-- `CsrRead` shows each field inside the `xlen()` bits at its location and nothing above them. The plain read is the
spec's decision D9. -/
def Obligations.CsrReadShowsFieldsAtTheirLocations : Prop :=
  ∀ s : State,
    (∀ n, sliceExists s.mxl n = true → slice n (csrRead s) = field s n) ∧
    (csrRead s).toNat < 2 ^ xlen s.mxl

/-- With `MXL = 1` the parts of the eight fields stand in the value read at the bits R14 to R21 print. The plain read is
the spec's decision D9. -/
def Obligations.SubFieldsStandAtThePrintedBits : Prop :=
  ∀ s : State, s.mxl = .mxl1 →
    PartsAt (csrRead s) (field s .e16) 7 5 3 2 1 0 ∧
    PartsAt (csrRead s) (field s .e17) 15 13 11 10 9 8 ∧
    PartsAt (csrRead s) (field s .e18) 23 21 19 18 17 16 ∧
    PartsAt (csrRead s) (field s .e19) 31 29 27 26 25 24 ∧
    PartsAt (csrRead s) (field s .e20) 39 37 35 34 33 32 ∧
    PartsAt (csrRead s) (field s .e21) 47 45 43 42 41 40 ∧
    PartsAt (csrRead s) (field s .e22) 55 53 51 50 49 48 ∧
    PartsAt (csrRead s) (field s .e23) 63 61 59 58 57 56

/-- R62: what the bits of one field value are, and that the masks of the write functions test exactly them. -/
def Obligations.FieldValueEncoding : Prop :=
  ∀ v : Byte,
    (lBit v = v.getLsbD 7 ∧ rsvBits v = v.extractLsb' 5 2 ∧ xBit v = v.getLsbD 2 ∧ wBit v = v.getLsbD 1 ∧
      rBit v = v.getLsbD 0) ∧
    (aMode v = .off ↔ v.extractLsb' 3 2 = 0#2) ∧ (aMode v = .tor ↔ v.extractLsb' 3 2 = 1#2) ∧
    (aMode v = .na4 ↔ v.extractLsb' 3 2 = 2#2) ∧ (aMode v = .napot ↔ v.extractLsb' 3 2 = 3#2) ∧
    (v &&& 0x80#8 ≠ 0#8 ↔ lBit v = true) ∧ (v &&& 0x01#8 = 0#8 ↔ rBit v = false) ∧
    (v &&& 0x02#8 = 0x02#8 ↔ wBit v = true) ∧ (v &&& 0x18#8 ≠ 0x10#8 ↔ aMode v ≠ .na4)

/-- R72: `WriteField` accepts exactly when the field is implemented, not guarded out, not locked, and the new value is
neither `R = 0, W = 1` nor a forbidden NA4; it then stores bits 7 and 4:0 of the new value over bits 6:5 of the old,
and otherwise keeps the old value whole. The tests are said by bits here and coded by masks in the model. -/
def Obligations.WriteFieldAcceptsOrKeeps : Prop :=
  ∀ (p : Params) (m : Mxl) (n : Entry) (old new : Byte),
    writeField p m n old new =
      if p.impl.get n = true ∧
          ¬ ((n = .e21 ∨ n = .e22 ∨ n = .e23 ∨ (n = .e20 ∧ p.pmp20XlenGuard = true)) ∧ m ≠ .mxl1) ∧
          lBit old = false ∧ ¬ (rBit new = false ∧ wBit new = true) ∧ (p.granularity < 2 ∨ aBits new ≠ 2#2)
      then (new &&& 0x9f#8) ||| (old &&& 0x60#8) else old

/-- The model's write of an implemented field agrees with the function D0 prints for it in every bit but 6:5, which it
keeps (C6), wherever C7 leaves the printed function in force. -/
def Obligations.WriteFieldRefinesThePrintedFunctions : Prop :=
  ∀ (p : Params) (m : Mxl) (n : Entry) (old new : Byte), p.impl.get n = true →
    (n = .e20 → m = .mxl1 ∨ p.pmp20XlenGuard = false) →
    writeField p m n old new &&& 0x9f#8 = sourceWrite p.granularity m n old new &&& 0x9f#8 ∧
    rsvBits (writeField p m n old new) = rsvBits old

/-- R71: `CsrWrite` gives each field, from the state before the write, `WriteField` of its slice where the slice exists,
`WriteField` of 0 for field 20 at 32 bits without the guard, and its old value otherwise; nothing else of the state
changes, and a write in which every field keeps its value changes nothing at all. -/
def Obligations.CsrWriteUpdatesEachFieldFromTheOldState : Prop :=
  ∀ (s : State) (v : Word),
    (∀ n, fieldLsb n + 7 < xlen s.mxl →
      field (csrWrite s v) n = writeField s.params s.mxl n (field s n) (slice n v)) ∧
    (∀ n, ¬ fieldLsb n + 7 < xlen s.mxl → n = .e20 → s.params.pmp20XlenGuard = false →
      field (csrWrite s v) n = writeField s.params s.mxl n (field s n) 0x00#8) ∧
    (∀ n, ¬ fieldLsb n + 7 < xlen s.mxl → ¬ (n = .e20 ∧ s.params.pmp20XlenGuard = false) →
      field (csrWrite s v) n = field s n) ∧
    CsrFrame s (csrWrite s v) ∧ (csrWrite s v).pc = s.pc ∧ (∀ j, readX (csrWrite s v) j = readX s j) ∧
    ((∀ n, field (csrWrite s v) n = field s n) → csrWrite s v = s)

/-- With `MXL = 0` a write reaches fields 16 to 19 only, whatever is written (the spec's decisions D3 and D5, default
guard). -/
def Obligations.ThirtyTwoBitWriteKeepsUpperFields : Prop :=
  ∀ (s : State) (v : Word), s.mxl = .mxl0 → s.params.pmp20XlenGuard = true →
    field (csrWrite s v) .e20 = field s .e20 ∧ field (csrWrite s v) .e21 = field s .e21 ∧
    field (csrWrite s v) .e22 = field s .e22 ∧ field (csrWrite s v) .e23 = field s .e23

/-- With `MXL = 0` and the guard of field 20 switched off, every write clears bits 7 and 4:0 of an unlocked, implemented
`pmp20cfg` and keeps its bits 6:5 (the literal reading R77 keeps available; the spec's decision D5). -/
def Obligations.UnguardedPmp20IsClearedByThirtyTwoBitWrites : Prop :=
  ∀ (s : State) (v : Word), s.mxl = .mxl0 → s.params.pmp20XlenGuard = false → s.params.impl.get .e20 = true →
    field (csrWrite s v) .e20 =
      if lBit (field s .e20) = true then field s .e20 else field s .e20 &&& 0x60#8

/-- R27: a field that is not implemented is 0 in every state, and a write or a step leaves it 0. -/
def Obligations.ReadOnlyFieldIsAlwaysZero : Prop :=
  ∀ (s : State) (n : Entry), s.params.impl.get n = false →
    field s n = 0x00#8 ∧ (∀ v, field (csrWrite s v) n = 0x00#8) ∧ (∀ t, step s = .next t → field t n = 0x00#8)

/-- Writing back what was read changes nothing (the spec's derivation in R88), wherever C7 leaves field 20 alone. -/
def Obligations.WriteBackIsTheIdentity : Prop :=
  (∀ (p : Params) (m : Mxl) (n : Entry) (v : Byte), writeField p m n v v = v) ∧
  (∀ s : State, s.mxl = .mxl1 ∨ s.params.pmp20XlenGuard = true → csrWrite s (csrRead s) = s)

/-- In D1's configuration every read gives 0 and every write changes nothing (the spec's derivation in 00_scope.md
section 5). -/
def Obligations.CfgD1ReadsZeroAndIgnoresWrites : Prop :=
  ∀ (s : State) (v : Word), IsCfgD1 s → csrRead s = 0#64 ∧ csrWrite s v = s

/-- Software finds out whether an unlocked field is implemented by writing a legal value that is not 0 outside bits 6:5
and reading back: 0 is read exactly when it is not (the spec's derivation in R102 (e)). For every field that the format in
force shows, with `MXL = 0` fields 16 to 19. -/
def Obligations.ProbeWriteRevealsImplementation : Prop :=
  ∀ (s : State) (v : Word) (n : Entry), sliceExists s.mxl n = true → lBit (field s n) = false →
    legal s.params.granularity (slice n v) = true → slice n v &&& 0x9f#8 ≠ 0x00#8 →
    (slice n (csrRead (csrWrite s v)) = 0x00#8 ↔ s.params.impl.get n = false)

/-- `Legal` has 192 values out of 256 under a granularity below 2 and 144 otherwise (the spec's count in R28). -/
def Obligations.LegalValueCounts : Prop :=
  ∀ g : Nat, ((List.range 256).filter fun v => legal g (BitVec.ofNat 8 v)).length = if g < 2 then 192 else 144

/-! ### The six instructions -/

/-- R82, `csrrw`, general knowledge in the spec: outside `M` it raises IllegalInstruction with its own bits; in `M` it
completes with `x[rs1]` offered to the register. That `pc + 4` wraps within `xlen()` bits is the MODEL'S CHOICE
(notes/assumptions/5.md). -/
def Obligations.CsrrwResult : Prop :=
  ∀ (s : State) (rd rs1 : RegIdx), s.params.smpmp = true →
    (s.mode ≠ .M → exec (.csrrw rd 0x3a4#12 rs1) s = .fault (.illegalInstruction (encode (.csrrw rd 0x3a4#12 rs1)))) ∧
    (s.mode = .M → ∃ t, exec (.csrrw rd 0x3a4#12 rs1) s = .next t ∧ CsrDone s rd (some (readX s rs1)) t)

/-- R83, `csrrs`, general knowledge in the spec: in `M` the old value with the bits of `x[rs1]` set is offered, and
nothing when `rs1` is `x[0]`. That `pc + 4` wraps within `xlen()` bits is the MODEL'S CHOICE
(notes/assumptions/5.md). -/
def Obligations.CsrrsResult : Prop :=
  ∀ (s : State) (rd rs1 : RegIdx), s.params.smpmp = true →
    (s.mode ≠ .M → exec (.csrrs rd 0x3a4#12 rs1) s = .fault (.illegalInstruction (encode (.csrrs rd 0x3a4#12 rs1)))) ∧
    (s.mode = .M → ∃ t, exec (.csrrs rd 0x3a4#12 rs1) s = .next t ∧
      CsrDone s rd (if rs1 = 0 then none else some (csrRead s ||| readX s rs1)) t)

/-- R84, `csrrc`, general knowledge in the spec: in `M` the old value with the bits of `x[rs1]` cleared is offered, and
nothing when `rs1` is `x[0]`. That `pc + 4` wraps within `xlen()` bits is the MODEL'S CHOICE
(notes/assumptions/5.md). -/
def Obligations.CsrrcResult : Prop :=
  ∀ (s : State) (rd rs1 : RegIdx), s.params.smpmp = true →
    (s.mode ≠ .M → exec (.csrrc rd 0x3a4#12 rs1) s = .fault (.illegalInstruction (encode (.csrrc rd 0x3a4#12 rs1)))) ∧
    (s.mode = .M → ∃ t, exec (.csrrc rd 0x3a4#12 rs1) s = .next t ∧
      CsrDone s rd (if rs1 = 0 then none else some (csrRead s &&& ~~~ readX s rs1)) t)

/-- R85, `csrrwi`, general knowledge in the spec: in `M` the zero-extended immediate is offered. That `pc + 4` wraps
within `xlen()` bits is the MODEL'S CHOICE (notes/assumptions/5.md). -/
def Obligations.CsrrwiResult : Prop :=
  ∀ (s : State) (rd : RegIdx) (u : BitVec 5), s.params.smpmp = true →
    (s.mode ≠ .M → exec (.csrrwi rd 0x3a4#12 u) s = .fault (.illegalInstruction (encode (.csrrwi rd 0x3a4#12 u)))) ∧
    (s.mode = .M → ∃ t, exec (.csrrwi rd 0x3a4#12 u) s = .next t ∧ CsrDone s rd (some (u.zeroExtend 64)) t)

/-- R86, `csrrsi`, general knowledge in the spec: in `M` the old value with the bits of the immediate set is offered, and
nothing when the immediate is 0. That `pc + 4` wraps within `xlen()` bits is the MODEL'S CHOICE
(notes/assumptions/5.md). -/
def Obligations.CsrrsiResult : Prop :=
  ∀ (s : State) (rd : RegIdx) (u : BitVec 5), s.params.smpmp = true →
    (s.mode ≠ .M → exec (.csrrsi rd 0x3a4#12 u) s = .fault (.illegalInstruction (encode (.csrrsi rd 0x3a4#12 u)))) ∧
    (s.mode = .M → ∃ t, exec (.csrrsi rd 0x3a4#12 u) s = .next t ∧
      CsrDone s rd (if u = 0#5 then none else some (csrRead s ||| u.zeroExtend 64)) t)

/-- R87, `csrrci`, general knowledge in the spec: in `M` the old value with the bits of the immediate cleared is offered,
and nothing when the immediate is 0. That `pc + 4` wraps within `xlen()` bits is the MODEL'S CHOICE
(notes/assumptions/5.md). -/
def Obligations.CsrrciResult : Prop :=
  ∀ (s : State) (rd : RegIdx) (u : BitVec 5), s.params.smpmp = true →
    (s.mode ≠ .M → exec (.csrrci rd 0x3a4#12 u) s = .fault (.illegalInstruction (encode (.csrrci rd 0x3a4#12 u)))) ∧
    (s.mode = .M → ∃ t, exec (.csrrci rd 0x3a4#12 u) s = .next t ∧
      CsrDone s rd (if u = 0#5 then none else some (csrRead s &&& ~~~ u.zeroExtend 64)) t)

/-- A set or clear form whose mask register holds 0 ends in the very state that the form with `x[0]` ends in (the spec's
derivation in R88), wherever C7 leaves field 20 alone. -/
def Obligations.ZeroMaskActsLikeX0 : Prop :=
  ∀ (s : State) (rd rs1 : RegIdx), CsrReady s → readX s rs1 = 0#64 →
    s.mxl = .mxl1 ∨ s.params.pmp20XlenGuard = true →
    exec (.csrrs rd 0x3a4#12 rs1) s = exec (.csrrs rd 0x3a4#12 0) s ∧
    exec (.csrrc rd 0x3a4#12 rs1) s = exec (.csrrc rd 0x3a4#12 0) s

/-- No immediate form sets the lock of any field (R65, general knowledge in the spec). -/
def Obligations.ImmediateFormsNeverLock : Prop :=
  ∀ (s : State) (rd : RegIdx) (u : BitVec 5), CsrReady s →
    ∀ i ∈ [Instr.csrrwi rd 0x3a4#12 u, Instr.csrrsi rd 0x3a4#12 u, Instr.csrrci rd 0x3a4#12 u],
      ∃ t, exec i s = .next t ∧ ∀ n, lBit (field t n) = true → lBit (field s n) = true

/-- The immediate set and clear forms change at most bits 4:0 of `pmp16cfg` (R65, general knowledge in the spec),
wherever C7 leaves field 20 alone. -/
def Obligations.ImmediateSetAndClearReachEntry16Only : Prop :=
  ∀ (s : State) (rd : RegIdx) (u : BitVec 5), CsrReady s → s.mxl = .mxl1 ∨ s.params.pmp20XlenGuard = true →
    ∀ i ∈ [Instr.csrrsi rd 0x3a4#12 u, Instr.csrrci rd 0x3a4#12 u],
      ∃ t, exec i s = .next t ∧ (∀ n, n ≠ .e16 → field t n = field s n) ∧
        field t .e16 &&& 0xe0#8 = field s .e16 &&& 0xe0#8

/-- In mode `M` no instruction raises an exception, whatever it writes (the spec's decision D11 in R91). D11 speaks of
`pmpcfg4` on a hart with `Smpmp`; that another CSR or a hart without `Smpmp` raises none is the MODEL'S CHOICE, which
refuses there (notes/assumptions/13.md, 14.md). -/
def Obligations.NoInstructionFaultsInModeM : Prop :=
  ∀ (i : Instr) (s : State) (f : Fault), s.mode = .M → exec i s ≠ .fault f

/-- MODEL'S CHOICE (notes/assumptions/13.md): a CSR instruction that names another register is refused by name, since
R66 calls every other register outside the spec. -/
def Obligations.OtherCsrIsRefused : Prop :=
  ∀ (i : Instr) (s : State), s.params.smpmp = true → ¬ i.WellFormed → exec i s = .refused (.otherCsr i.csr)

/-- A hart without `Smpmp` is refused whole (the spec's decision D19 in R92; notes/assumptions/14.md). -/
def Obligations.HartWithoutSmpmpIsRefused : Prop :=
  ∀ s : State, s.params.smpmp = false →
    step s = .refused .smpmpAbsent ∧ ∀ i, exec i s = .refused .smpmpAbsent

/-- An instruction keeps the fetch address on a 4-byte boundary (R64, R89; MODEL'S CHOICE of the wrap of `pc`,
notes/assumptions/5.md). -/
def Obligations.InstructionsKeepPcAligned : Prop :=
  ∀ (i : Instr) (s t : State), exec i s = .next t → fetchAddr s 0 % 4 = 0 → fetchAddr t 0 % 4 = 0

/-- `x[0]` reads 0 and a write to it is dropped (R34, general knowledge in the spec). -/
def Obligations.X0IsHardwiredZero : Prop :=
  ∀ (s : State) (v : Word), readX s 0 = 0#64 ∧ writeX s 0 v = s

/-! ### The PMP check -/

/-- The table of R42 with the mode rule of R43 (the spec's derivation and decision D14) and the exception of R46 and R90:
an unlocked entry lets everything through in `M`; otherwise `X` decides fetches, `R` loads, `W` stores and AMOs. -/
def Obligations.EntryCheckFollowsTheTable : Prop :=
  ∀ (s : State) (n : Entry) (mode : Mode) (addr : Nat),
    (mode = .M → lBit (field s n) = false → ∀ kind, pmpEntryCheck s n kind mode addr = .allowed) ∧
    (mode ≠ .M ∨ lBit (field s n) = true →
      pmpEntryCheck s n .fetch mode addr =
        (if xBit (field s n) = true then .allowed else .raises (.accessFault .fetch addr)) ∧
      pmpEntryCheck s n .load mode addr =
        (if rBit (field s n) = true then .allowed else .raises (.accessFault .load addr)) ∧
      pmpEntryCheck s n .store mode addr =
        (if wBit (field s n) = true then .allowed else .raises (.accessFault .store addr)) ∧
      pmpEntryCheck s n .amo mode addr =
        (if wBit (field s n) = true then .allowed else .raises (.accessFault .amo addr)))

/-- R47: an entry with `A = OFF` matches no access and governs none, so its permission bits have no effect; its `L`
still locks the field. -/
def Obligations.OffEntryGovernsNothingButStillLocks : Prop :=
  ∀ (s : State) (n : Entry), aMode (field s n) = .off →
    (∀ addr len, matchesAccess s (.entry n) addr len = false ∧ governing s addr len ≠ some (.entry n)) ∧
    (∀ kind mode addr, entryVerdict s n kind mode addr = .allowed) ∧
    (lBit (field s n) = true → ∀ v, field (csrWrite s v) n = field s n)

/-- MODEL'S CHOICE (notes/assumptions/10.md): the rows that supply `Governing` supply `Matches` too, so what governs an
access, the environment as governor included, matches it. R44, R45 and D13 tie the two inputs by `A = OFF` alone. -/
def Obligations.GoverningImpliesMatching : Prop :=
  ∀ (s : State) (addr len : Nat) (g : Governor), governing s addr len = some g → matchesAccess s g addr len = true

/-- A fetch denied by the entry that governs it ends the step with its Access Fault, whatever stands in memory there: the
instruction is never decoded (the spec's derivation in R93; R90). MODEL'S CHOICES: the fetch is one access of 4 bytes at
`pc`, which is the fault address (notes/assumptions/20.md), and `pc` lies within `xlen()` bits
(notes/assumptions/5.md). -/
def Obligations.DeniedFetchFaultsBeforeDecoding : Prop :=
  ∀ (s : State) (n : Entry), s.params.smpmp = true → nextMove s = .instruction → pcAligned s = true →
    governing s (fetchAddr s 0) 4 = some (.entry n) → (s.mode ≠ .M ∨ lBit (field s n) = true) →
    xBit (field s n) = false →
    step s = .fault (.accessFault .fetch (fetchAddr s 0))

/-- A store or AMO of the surrounding hart: where the entry that governs it denies it (`W` clear, and a mode other than
`M` or `L` set) it raises its Access Fault and the access does not happen; whatever else denies it faults too (R42, R43,
R46). MODEL'S CHOICE (notes/assumptions/7.md): one that is let through writes its bytes, at addresses without an upper
bound, into the environment's memory and no others. -/
def Obligations.StoresAreCheckedThenWriteTheirBytes : Prop :=
  ∀ (s : State) (addr : Nat) (data : List Byte) (rest : List Move), s.params.smpmp = true →
    ∀ m ∈ [(AccessKind.store, Move.transfer (.store addr data)), (AccessKind.amo, Move.transfer (.amo addr data))],
      s.moves = m.2 :: rest →
      (∀ f, gate s m.1 s.mode addr data.length = .raises f → step s = .fault f) ∧
      (∀ n, governing s addr data.length = some (.entry n) → (s.mode ≠ .M ∨ lBit (field s n) = true) →
        wBit (field s n) = false → step s = .fault (.accessFault m.1 addr)) ∧
      ((gate s m.1 s.mode addr data.length = .allowed ∨
          ∃ n, governing s addr data.length = some (.entry n) ∧
            ((s.mode = .M ∧ lBit (field s n) = false) ∨ wBit (field s n) = true)) →
        ∃ t, step s = .next t ∧ t.moves = rest ∧ t.pmpcfg4 = s.pmpcfg4 ∧
          (∀ k (h : k < data.length), t.memory.read (addr + k) = some data[k]) ∧
          (∀ a, a < addr ∨ addr + data.length ≤ a → t.memory.read a = s.memory.read a))

/-- A `csrrw` that locks an entry without `X` is in force at the next fetch, even in `M` (the spec's decision D15 in
R50): when the entry governs that fetch, the next step of the hart is its Access Fault. An entry left with `A = OFF`
governs nothing (R47). MODEL'S CHOICES: the fetch is one access of 4 bytes at `pc` (notes/assumptions/20.md), and `pc`
wraps within `xlen()` bits (notes/assumptions/5.md). -/
def Obligations.LockingWriteDeniesTheNextFetch : Prop :=
  ∀ (s : State) (rd rs1 : RegIdx) (n : Entry), CsrReady s → sliceExists s.mxl n = true →
    s.params.impl.get n = true → lBit (field s n) = false →
    legal s.params.granularity (slice n (readX s rs1)) = true → lBit (slice n (readX s rs1)) = true →
    xBit (slice n (readX s rs1)) = false →
    ∃ t, exec (.csrrw rd 0x3a4#12 rs1) s = .next t ∧
      (∀ addr, pmpEntryCheck t n .fetch .M addr = .raises (.accessFault .fetch addr)) ∧
      (nextMove t = .instruction → pcAligned t = true → governing t (fetchAddr t 0) 4 = some (.entry n) →
        step t = .fault (.accessFault .fetch (fetchAddr t 0)))

/-! ### Reset -/

/-- What reset leaves in each field, whatever is drawn: 0 where not implemented (R27); else a legal value whose bits 6:5
are the drawn `RSV_RESET` (the spec's decisions D8 and D18 in R29, R31). -/
def Obligations.ResetFieldsAreLegalOrZero : Prop :=
  ∀ (p : Params) (n : Entry) (raw : Byte) (rsv : BitVec 2),
    (p.impl.get n = false → resetField p n raw rsv = 0x00#8) ∧
    (p.impl.get n = true → legal p.granularity (resetField p n raw rsv) = true ∧
      rsvBits (resetField p n raw rsv) = rsv)

/-- The draw excludes no legal value (the spec's decision D8 in R29: "not further determined"). -/
def Obligations.ResetDrawReachesEveryLegalValue : Prop :=
  ∀ (p : Params) (n : Entry) (v : Byte), p.impl.get n = true → legal p.granularity v = true →
    ∃ raw rsv, resetField p n raw rsv = v

/-- The reset move draws the fields afresh and takes everything else of the hart from its inputs (R100, R101, decisions
D8 and D22). MODEL'S CHOICES: the numbered draw (notes/assumptions/3.md), `pc` and registers cut to `xlen()` bits
(notes/assumptions/4.md, 5.md), reset as a move (notes/assumptions/9.md), and that the parameters, the environment's
memory, its rows of Matches and Governing and `lastRead` stay as they are (notes/assumptions/1.md, 19.md). -/
def Obligations.ResetMoveDrawsAfresh : Prop :=
  ∀ (s : State) (i : HartInputs) (rest : List Move), s.params.smpmp = true → s.moves = .reset i :: rest →
    ∃ t, step s = .next t ∧
      (∀ n, t.pmpcfg4.get n = resetField s.params n (Config.resetDraw s.draws n) (Config.rsvReset s.draws n)) ∧
      t.draws = s.draws + 1 ∧ t.mode = i.mode ∧ t.mxl = i.mxl ∧ t.pc = trunc i.mxl i.pc ∧
      (∀ j : RegIdx, (h : j.val ≠ 0) → readX t j = trunc i.mxl (i.x[j.val - 1]'(by omega))) ∧
      t.params = s.params ∧ t.memory = s.memory ∧ t.matchRows = s.matchRows ∧ t.lastRead = s.lastRead ∧
      t.moves = rest

/-! ### The whole machine -/

/-- Every step keeps the invariant: implemented fields legal, others 0, `pc` and the registers `xlen()` bits wide,
memory in canonical form (R27, R30 (a), R34). MODEL'S CHOICES: the width of `pc` (notes/assumptions/5.md), the form of
the registers (notes/assumptions/4.md) and the canonical memory (notes/assumptions/7.md). -/
def Obligations.EveryStepKeepsTheInvariant : Prop :=
  ∀ s t : State, Inv s → step s = .next t → Inv t

/-- The state after reset meets the invariant, whatever the parameters and the draws. MODEL'S CHOICE: mode, `MXL`, `pc`
and registers of `State.reset` (notes/assumptions/2.md), its empty memory (notes/assumptions/7.md) and its empty inputs
(notes/assumptions/22.md); R101 gives none of them a value. -/
def Obligations.ResetStateMeetsTheInvariant : Prop := Inv State.reset

/-- A locked field never changes until reset, whatever moves are made (R24 (a), and the spec's derivation in R30 (b)). -/
def Obligations.LockedFieldNeverChangesUntilReset : Prop :=
  ∀ (s t : State) (n : Entry), lBit (field s n) = true → NoReset s → step s = .next t → field t n = field s n

/-- The reserved bits of a field never change until reset (R25, decision D6; the spec's derivation in R30 (c)). -/
def Obligations.ReservedBitsNeverChangeUntilReset : Prop :=
  ∀ (s t : State) (n : Entry), NoReset s → step s = .next t → rsvBits (field t n) = rsvBits (field s n)

/-- Between resets a field changes only in mode `M`, only unlocked, and only to `(new & 0x9F) | (old & 0x60)` for a legal
`new` (the spec's derivations in R30 (d) and R32). -/
def Obligations.FieldsChangeOnlyByAcceptedWrites : Prop :=
  ∀ (s t : State) (n : Entry), NoReset s → step s = .next t → field t n ≠ field s n →
    s.mode = .M ∧ s.params.impl.get n = true ∧ lBit (field s n) = false ∧
    ∃ new, legal s.params.granularity new = true ∧ field t n = (new &&& 0x9f#8) ||| (field s n &&& 0x60#8)

/-- Only the hart's instruction and `CsrWrite(v)` can change a field between resets (the spec's derivation in R32). -/
def Obligations.OnlySoftwareWritesChangeFields : Prop :=
  ∀ s t : State, NoReset s → step s = .next t → nextMove s ≠ .instruction → (∀ v, nextMove s ≠ .csrWrite v) →
    t.pmpcfg4 = s.pmpcfg4

/-- A locked entry's answer to every access is the same after any step but a reset (R24; D14). -/
def Obligations.LockedEntryVerdictNeverChanges : Prop :=
  ∀ (s t : State) (n : Entry), lBit (field s n) = true → NoReset s → step s = .next t →
    ∀ kind mode addr, pmpEntryCheck t n kind mode addr = pmpEntryCheck s n kind mode addr

/-- The parameters are constant for the life of the hart. R6 and decision D16 say so of `PMP_GRANULARITY`; that the
implemented entries, the guard, the compressed extension and `Smpmp` never change is the MODEL'S CHOICE
(notes/assumptions/1.md). -/
def Obligations.ParametersNeverChange : Prop :=
  ∀ s t : State, step s = .next t → t.params = s.params

/-- No step but a store or AMO of the surrounding hart changes a byte of memory (R41, R46). That reset and a change of
the surrounding hart leave memory alone is the MODEL'S CHOICE (notes/assumptions/9.md, 19.md). -/
def Obligations.OnlyStoresChangeMemory : Prop :=
  ∀ s t : State, step s = .next t → ¬ StoresBytes (nextMove s) → ∀ a, t.memory.read a = s.memory.read a

/-- A change of the surrounding hart, its `MXL` among it, leaves all eight stored fields as they were, so only the view
of them changes (decision D4 in R10; R94). MODEL'S CHOICES: `pc` and registers cut to `xlen()` bits
(notes/assumptions/4.md, 5.md), and that this move leaves memory, the rows of Matches and Governing and the parameters
alone (notes/assumptions/9.md, 1.md). -/
def Obligations.HartMoveKeepsAllStoredFields : Prop :=
  ∀ (s : State) (i : HartInputs) (rest : List Move), s.params.smpmp = true → s.moves = .hart i :: rest →
    ∃ t, step s = .next t ∧ t.pmpcfg4 = s.pmpcfg4 ∧ t.mode = i.mode ∧ t.mxl = i.mxl ∧ t.pc = trunc i.mxl i.pc ∧
      (∀ j : RegIdx, (h : j.val ≠ 0) → readX t j = trunc i.mxl (i.x[j.val - 1]'(by omega))) ∧
      t.params = s.params ∧ t.memory = s.memory ∧ t.matchRows = s.matchRows ∧ t.draws = s.draws ∧ t.moves = rest

/-- `CsrRead()` and `CsrWrite(v)` as bare events in mode `M` (R70, R71, R105); outside `M` they fault, MODEL'S CHOICE
(notes/assumptions/12.md). -/
def Obligations.BareReadAndWriteEvents : Prop :=
  ∀ (s : State) (v : Word) (rest : List Move), s.params.smpmp = true →
    (s.moves = .csrRead :: rest →
      step s = if s.mode = .M then .next { s with moves := rest, lastRead := some (csrRead s) }
        else .fault .accessOutsideM) ∧
    (s.moves = .csrWrite v :: rest →
      step s = if s.mode = .M then .next (csrWrite { s with moves := rest } v) else .fault .accessOutsideM)

/-- When the four bytes at `pc` decode to an instruction, and the fetch is aligned and let through, a step is that
instruction's meaning, at the state whose own move has been taken off the list. MODEL'S CHOICES: the four bytes are at
`pc` to `pc + 3` wrapped within `xlen()` bits (notes/assumptions/5.md), fetched as one access (notes/assumptions/20.md)
by the next move (notes/assumptions/9.md). -/
def Obligations.StepRunsTheDecodedInstruction : Prop :=
  ∀ (s : State) (i : Instr) (b0 b1 b2 b3 : Byte), s.params.smpmp = true → nextMove s = .instruction →
    pcAligned s = true → gate s .fetch s.mode (fetchAddr s 0) 4 = .allowed →
    s.memory.read (fetchAddr s 0) = some b0 → s.memory.read (fetchAddr s 1) = some b1 →
    s.memory.read (fetchAddr s 2) = some b2 → s.memory.read (fetchAddr s 3) = some b3 →
    decode [b0, b1, b2, b3] = .ok (i, []) →
    step s = exec i { s with moves := s.moves.tail }

/-- MODEL'S CHOICE (notes/assumptions/8.md): placing the word of an instruction makes the next step run it, from any
state of a hart with `Smpmp`. The fetch is let through because no row speaks of it any more (notes/assumptions/10.md),
and reads the bytes just placed. -/
def Obligations.PlacedWordRunsNext : Prop :=
  ∀ (s : State) (i : Instr), s.params.smpmp = true →
    step (s.withFetchWord 32 (encode i).toNat) = exec i (s.withFetchWord 32 (encode i).toNat)

/-- Where a byte of the four at an aligned `pc` whose fetch is let through has never been written, no instruction stands
and the run has ended (decision D24 in R105). MODEL'S CHOICE of a refusal and of where it shows
(notes/assumptions/7.md, 20.md, 23.md), and of the wrap of `pc` (notes/assumptions/5.md). -/
def Obligations.RunEndsWhereNoInstructionStands : Prop :=
  ∀ (s : State) (k : Nat), s.params.smpmp = true → nextMove s = .instruction → pcAligned s = true →
    gate s .fetch s.mode (fetchAddr s 0) 4 = .allowed → k < 4 → s.memory.read (fetchAddr s k) = none →
    step s = .refused (.endOfRun (fetchAddr s 0))

/-! ### The other moves -/

/-- A fetch or a load of the surrounding hart: where the entry that governs it denies it (`X`, or `R`, clear, and a mode
other than `M` or `L` set) it raises its Access Fault; whatever else denies it faults too; one that is let through
changes nothing (R42, R43, R46). That the move returns no data is the MODEL'S CHOICE (notes/assumptions/9.md). -/
def Obligations.FetchesAndLoadsAreChecked : Prop :=
  ∀ (s : State) (addr len : Nat) (rest : List Move), s.params.smpmp = true →
    ∀ m ∈ [(AccessKind.fetch, Transfer.fetch addr len, xBit), (AccessKind.load, Transfer.load addr len, rBit)],
      s.moves = .transfer m.2.1 :: rest →
      (∀ f, gate s m.1 s.mode addr len = .raises f → step s = .fault f) ∧
      (∀ n, governing s addr len = some (.entry n) → (s.mode ≠ .M ∨ lBit (field s n) = true) →
        m.2.2 (field s n) = false → step s = .fault (.accessFault m.1 addr)) ∧
      ((gate s m.1 s.mode addr len = .allowed ∨
          ∃ n, governing s addr len = some (.entry n) ∧
            ((s.mode = .M ∧ lBit (field s n) = false) ∨ m.2.2 (field s n) = true)) →
        step s = .next { s with moves := rest })

/-- `PmpEntryCheck(n, kind, mode, addr)` as an event (R42, R43, R46, R105): nothing changes where the entry lets the
access through, and its Access Fault is raised where it denies it. With `A = OFF` no check is made (R47); that such an
event then completes is the MODEL'S CHOICE (notes/assumptions/10.md). -/
def Obligations.PmpEntryCheckEvent : Prop :=
  ∀ (s : State) (n : Entry) (mode : Mode) (addr : Nat) (rest : List Move), s.params.smpmp = true →
    ∀ k ∈ [(AccessKind.fetch, xBit), (AccessKind.load, rBit), (AccessKind.store, wBit), (AccessKind.amo, wBit)],
      s.moves = .pmpEntryCheck n k.1 mode addr :: rest →
      (aMode (field s n) = .off ∨ (mode = .M ∧ lBit (field s n) = false) ∨ k.2 (field s n) = true →
        step s = .next { s with moves := rest }) ∧
      (aMode (field s n) ≠ .off → (mode ≠ .M ∨ lBit (field s n) = true) → k.2 (field s n) = false →
        step s = .fault (.accessFault k.1 addr))

/-- MODEL'S CHOICE (notes/assumptions/9.md, 10.md): the environment gives `Matches` and `Governing` anew by a move of its
own, which changes nothing else. -/
def Obligations.MatchingMoveReplacesTheInputs : Prop :=
  ∀ (s : State) (rows : List MatchRow) (rest : List Move), s.params.smpmp = true → s.moves = .matching rows :: rest →
    step s = .next { s with matchRows := rows, moves := rest }

/-- Four bytes at an aligned `pc` whose fetch is let through, and which are none of the six instructions, are refused by
name (R66, general knowledge in the spec). MODEL'S CHOICES: the wrap of `pc` and the one access of the fetch
(notes/assumptions/5.md, 20.md). -/
def Obligations.UndecodableWordIsRefused : Prop :=
  ∀ (s : State) (b0 b1 b2 b3 : Byte), s.params.smpmp = true → nextMove s = .instruction → pcAligned s = true →
    gate s .fetch s.mode (fetchAddr s 0) 4 = .allowed →
    s.memory.read (fetchAddr s 0) = some b0 → s.memory.read (fetchAddr s 1) = some b1 →
    s.memory.read (fetchAddr s 2) = some b2 → s.memory.read (fetchAddr s 3) = some b3 →
    (∀ i, decodeWord (b3 ++ b2 ++ b1 ++ b0 : BitVec (8 + 8 + 8 + 8)) ≠ .ok i) →
    ∃ r, decode [b0, b1, b2, b3] = .error r ∧ step s = .refused (.undecodable r)

/-- MODEL'S CHOICE (notes/assumptions/6.md): a `pc` off the 4-byte boundary, or off the 2-byte one with the compressed
extension (R64), faults before anything else is looked at. -/
def Obligations.MisalignedPcFaults : Prop :=
  ∀ s : State, s.params.smpmp = true → nextMove s = .instruction → fetchAddr s 0 % 4 ≠ 0 →
    (s.params.compressed = true → fetchAddr s 0 % 2 ≠ 0) →
    step s = .fault (.pcMisaligned (fetchAddr s 0))
end

