-- ==== Sys2Proof/Laws/Decode.lean ====
section
/-! SUPPORT. The five parts of an assembled word, each found again at its bits (R64). -/

namespace Sys2Proof

theorem assemble_opcode (csr : CsrAddr) (src : BitVec 5) (f : BitVec 3) (rd : RegIdx) :
    (assemble csr src f rd).extractLsb' 0 7 = systemOpcode := by
  ext i hi
  simp only [assemble, BitVec.getElem_extractLsb', BitVec.getLsbD_append]
  simp [hi]

theorem assemble_rd (csr : CsrAddr) (src : BitVec 5) (f : BitVec 3) (rd : RegIdx) :
    (assemble csr src f rd).extractLsb' 7 5 = bitsOfReg rd := by
  ext i hi
  simp only [assemble, BitVec.getElem_extractLsb', BitVec.getLsbD_append]
  simp [hi]

theorem assemble_funct3 (csr : CsrAddr) (src : BitVec 5) (f : BitVec 3) (rd : RegIdx) :
    (assemble csr src f rd).extractLsb' 12 3 = f := by
  ext i hi
  simp only [assemble, BitVec.getElem_extractLsb', BitVec.getLsbD_append]
  simp [show ¬ (12 + i < 7) by omega, show ¬ (12 + i - 7 < 5) by omega, show 12 + i - 7 - 5 = i by omega, hi]

theorem assemble_src (csr : CsrAddr) (src : BitVec 5) (f : BitVec 3) (rd : RegIdx) :
    (assemble csr src f rd).extractLsb' 15 5 = src := by
  ext i hi
  simp only [assemble, BitVec.getElem_extractLsb', BitVec.getLsbD_append]
  simp [show ¬ (15 + i < 7) by omega, show ¬ (15 + i - 7 < 5) by omega, show ¬ (15 + i - 7 - 5 < 3) by omega,
    show 15 + i - 7 - 5 - 3 = i by omega, hi]

theorem assemble_csr (csr : CsrAddr) (src : BitVec 5) (f : BitVec 3) (rd : RegIdx) :
    (assemble csr src f rd).extractLsb' 20 12 = csr := by
  ext i hi
  simp only [assemble, BitVec.getElem_extractLsb', BitVec.getLsbD_append]
  simp [show ¬ (20 + i < 7) by omega, show ¬ (20 + i - 7 < 5) by omega, show ¬ (20 + i - 7 - 5 < 3) by omega,
    show ¬ (20 + i - 7 - 5 - 3 < 5) by omega, show 20 + i - 7 - 5 - 3 - 5 = i by omega, BitVec.getLsbD_eq_getElem hi]

@[simp] theorem regOfBits_bitsOfReg (r : RegIdx) : regOfBits (bitsOfReg r) = r := rfl

@[simp] theorem bitsOfReg_regOfBits (b : BitVec 5) : bitsOfReg (regOfBits b) = b := rfl

end Sys2Proof
end

