-- ==== Sys2Proof/Laws/Fields.lean ====
section
/-! SUPPORT. Small lemmas about the per-entry tables and about what one field takes from a write and from reset. -/

namespace Sys2Proof

@[simp] theorem PerEntry.get_ofFn {α : Type} (f : Entry → α) (n : Entry) : (PerEntry.ofFn f).get n = f n := by
  cases n <;> rfl

theorem PerEntry.ext_get {α : Type} {a b : PerEntry α} (h : ∀ n, a.get n = b.get n) : a = b := by
  cases a; cases b
  have h16 := h .e16; have h17 := h .e17; have h18 := h .e18; have h19 := h .e19
  have h20 := h .e20; have h21 := h .e21; have h22 := h .e22; have h23 := h .e23
  simp only [PerEntry.get] at *
  subst h16 h17 h18 h19 h20 h21 h22 h23
  rfl

@[simp] theorem PerEntry.ofFn_get {α : Type} (t : PerEntry α) : (PerEntry.ofFn fun n => t.get n) = t :=
  PerEntry.ext_get fun n => by simp

namespace Machine

@[simp] theorem trunc_mxl1 (v : Word) : trunc .mxl1 v = v := rfl

@[simp] theorem trunc_trunc (m : Mxl) (v : Word) : trunc m (trunc m v) = trunc m v := by
  cases m
  · apply BitVec.eq_of_toNat_eq; simp [trunc]
  · rfl

@[simp] theorem trunc_zero (m : Mxl) : trunc m 0#64 = 0#64 := by cases m <;> rfl

theorem trunc_toNat (m : Mxl) (v : Word) : (trunc m v).toNat = v.toNat % 2 ^ xlen m := by
  cases m
  · have := v.isLt; simp [trunc, xlen]; omega
  · have := v.isLt; simp [trunc, xlen]; omega

theorem or_and_distrib (a b k : Byte) : (a ||| b) &&& k = (a &&& k) ||| (b &&& k) := by
  ext i hi
  simp [Bool.and_or_distrib_right]

/-- Bits 7 and 4:0 of an accepted value come from the new one (R72). -/
theorem accepted_and (new old : Byte) (k : Byte) (h : k &&& 0x60#8 = 0#8) :
    ((new &&& 0x9f#8) ||| (old &&& 0x60#8)) &&& k = new &&& k := by
  have hk : ∀ k : Byte, k &&& 0x60#8 = 0#8 → 0x9f#8 &&& k = k ∧ 0x60#8 &&& k = 0#8 := by decide
  obtain ⟨h1, h2⟩ := hk k h
  rw [or_and_distrib, BitVec.and_assoc, BitVec.and_assoc, h1, h2]
  simp

/-- Bits 6:5 of an accepted value come from the old one (R25). -/
theorem accepted_rsv (new old : Byte) :
    ((new &&& 0x9f#8) ||| (old &&& 0x60#8)) &&& 0x60#8 = old &&& 0x60#8 := by
  rw [or_and_distrib, BitVec.and_assoc, BitVec.and_assoc]
  simp

/-- The reserved bits as a mask and as a bit pair (R13). -/
theorem rsv_congr {v w : Byte} (h : v &&& 0x60#8 = w &&& 0x60#8) : rsvBits v = rsvBits w := by
  have hr : ∀ u : Byte, rsvBits u = rsvBits (u &&& 0x60#8) := by decide
  rw [hr v, hr w, h]

/-- A field's own value offered back to it is stored unchanged (R88). -/
theorem accepted_self (v : Byte) : (v &&& 0x9f#8) ||| (v &&& 0x60#8) = v := by revert v; decide

/-- The test on `L` as a mask and as a bit (R62). -/
theorem mask_l (v : Byte) : (v &&& 0x80#8 ≠ 0x00#8) ↔ lBit v = true := by revert v; decide

/-- The test on `R` and `W` as masks and as bits (R62). -/
theorem mask_rw (v : Byte) :
    (v &&& 0x01#8 = 0x00#8 ∧ v &&& 0x02#8 = 0x02#8) ↔ (rBit v = false ∧ wBit v = true) := by
  revert v; decide

/-- The test on `A` as a mask and as a bit pair (R62). -/
theorem mask_a (v : Byte) : (v &&& 0x18#8 ≠ 0x10#8) ↔ aBits v ≠ 2#2 := by revert v; decide

/-- `writeField` keeps the old value or stores the accepted one: the two cases there are (R72). -/
theorem writeField_cases (p : Params) (m : Mxl) (n : Entry) (old new : Byte) :
    (writeField p m n old new = old) ∨
    (writeField p m n old new = (new &&& 0x9f#8) ||| (old &&& 0x60#8) ∧ p.impl.get n = true ∧ lBit old = false ∧
      legal p.granularity new = true) := by
  unfold writeField
  split
  · exact .inl rfl
  split
  · exact .inl rfl
  split
  · exact .inl rfl
  split
  · exact .inl rfl
  split
  · exact .inl rfl
  · refine .inr ⟨rfl, by simp_all, ?_, ?_⟩
    · rename_i h _ _
      simpa [mask_l] using h
    · rename_i hrw ha
      rw [mask_rw] at hrw
      rw [mask_a, not_not] at ha
      simp only [legal, Bool.and_eq_true, Bool.or_eq_true, decide_eq_true_eq, bne_iff_ne]
      refine ⟨?_, ha⟩
      cases h1 : rBit new <;> cases h2 : wBit new <;> simp_all

/-- The image of `legalise` is legal (R29). -/
theorem legal_legalise (g : Nat) (raw : Byte) : legal g (legalise g raw) = true := by
  unfold legalise
  split
  · assumption
  · have h : ∀ v : Byte, rBit (v &&& 0xe4#8) = false ∧ wBit (v &&& 0xe4#8) = false ∧ aBits (v &&& 0xe4#8) = 0#2 := by
      decide
    simp [legal, h raw]

/-- Legality looks at bits 4:0 only (R28: "It puts no condition on bits 7 and 6:5"). -/
theorem legal_congr (g : Nat) {v w : Byte} (h : v &&& 0x1f#8 = w &&& 0x1f#8) : legal g v = legal g w := by
  have hr : ∀ u : Byte, rBit u = rBit (u &&& 0x1f#8) := by decide
  have hw : ∀ u : Byte, wBit u = wBit (u &&& 0x1f#8) := by decide
  have ha : ∀ u : Byte, aBits u = aBits (u &&& 0x1f#8) := by decide
  unfold legal
  rw [hr v, hw v, ha v, h, ← hr w, ← hw w, ← ha w]

end Machine

end Sys2Proof
end

