-- ==== Sys2Proof/Laws/State.lean ====
section
/-! SUPPORT. One lemma per field of State and per named update: what the update leaves in that field. -/

namespace Sys2Proof.Machine

/-! ### csrWrite -/

@[simp] theorem csrWrite_params (s : State) (v : Word) :
    (csrWrite s v).params = s.params := rfl
@[simp] theorem csrWrite_pmpcfg4 (s : State) (v : Word) :
    (csrWrite s v).pmpcfg4 = PerEntry.ofFn fun n => newField s.params s.mxl n (s.pmpcfg4.get n) v := rfl
@[simp] theorem csrWrite_mode (s : State) (v : Word) :
    (csrWrite s v).mode = s.mode := rfl
@[simp] theorem csrWrite_mxl (s : State) (v : Word) :
    (csrWrite s v).mxl = s.mxl := rfl
@[simp] theorem csrWrite_pc (s : State) (v : Word) :
    (csrWrite s v).pc = s.pc := rfl
@[simp] theorem csrWrite_x (s : State) (v : Word) :
    (csrWrite s v).x = s.x := rfl
@[simp] theorem csrWrite_memory (s : State) (v : Word) :
    (csrWrite s v).memory = s.memory := rfl
@[simp] theorem csrWrite_matchRows (s : State) (v : Word) :
    (csrWrite s v).matchRows = s.matchRows := rfl
@[simp] theorem csrWrite_moves (s : State) (v : Word) :
    (csrWrite s v).moves = s.moves := rfl
@[simp] theorem csrWrite_draws (s : State) (v : Word) :
    (csrWrite s v).draws = s.draws := rfl
@[simp] theorem csrWrite_lastRead (s : State) (v : Word) :
    (csrWrite s v).lastRead = s.lastRead := rfl

/-! ### writeX -/

@[simp] theorem writeX_params (s : State) (i : RegIdx) (v : Word) :
    (writeX s i v).params = s.params := rfl
@[simp] theorem writeX_pmpcfg4 (s : State) (i : RegIdx) (v : Word) :
    (writeX s i v).pmpcfg4 = s.pmpcfg4 := rfl
@[simp] theorem writeX_mode (s : State) (i : RegIdx) (v : Word) :
    (writeX s i v).mode = s.mode := rfl
@[simp] theorem writeX_mxl (s : State) (i : RegIdx) (v : Word) :
    (writeX s i v).mxl = s.mxl := rfl
@[simp] theorem writeX_pc (s : State) (i : RegIdx) (v : Word) :
    (writeX s i v).pc = s.pc := rfl
@[simp] theorem writeX_x (s : State) (i : RegIdx) (v : Word) :
    (writeX s i v).x = setReg s.x i (trunc s.mxl v) := rfl
@[simp] theorem writeX_memory (s : State) (i : RegIdx) (v : Word) :
    (writeX s i v).memory = s.memory := rfl
@[simp] theorem writeX_matchRows (s : State) (i : RegIdx) (v : Word) :
    (writeX s i v).matchRows = s.matchRows := rfl
@[simp] theorem writeX_moves (s : State) (i : RegIdx) (v : Word) :
    (writeX s i v).moves = s.moves := rfl
@[simp] theorem writeX_draws (s : State) (i : RegIdx) (v : Word) :
    (writeX s i v).draws = s.draws := rfl
@[simp] theorem writeX_lastRead (s : State) (i : RegIdx) (v : Word) :
    (writeX s i v).lastRead = s.lastRead := rfl

/-! ### advancePc -/

@[simp] theorem advancePc_params (s : State) :
    (advancePc s).params = s.params := rfl
@[simp] theorem advancePc_pmpcfg4 (s : State) :
    (advancePc s).pmpcfg4 = s.pmpcfg4 := rfl
@[simp] theorem advancePc_mode (s : State) :
    (advancePc s).mode = s.mode := rfl
@[simp] theorem advancePc_mxl (s : State) :
    (advancePc s).mxl = s.mxl := rfl
@[simp] theorem advancePc_pc (s : State) :
    (advancePc s).pc = trunc s.mxl (s.pc + 4#64) := rfl
@[simp] theorem advancePc_x (s : State) :
    (advancePc s).x = s.x := rfl
@[simp] theorem advancePc_memory (s : State) :
    (advancePc s).memory = s.memory := rfl
@[simp] theorem advancePc_matchRows (s : State) :
    (advancePc s).matchRows = s.matchRows := rfl
@[simp] theorem advancePc_moves (s : State) :
    (advancePc s).moves = s.moves := rfl
@[simp] theorem advancePc_draws (s : State) :
    (advancePc s).draws = s.draws := rfl
@[simp] theorem advancePc_lastRead (s : State) :
    (advancePc s).lastRead = s.lastRead := rfl

/-! ### setHart -/

@[simp] theorem setHart_params (s : State) (i : HartInputs) :
    (setHart s i).params = s.params := rfl
@[simp] theorem setHart_pmpcfg4 (s : State) (i : HartInputs) :
    (setHart s i).pmpcfg4 = s.pmpcfg4 := rfl
@[simp] theorem setHart_mode (s : State) (i : HartInputs) :
    (setHart s i).mode = i.mode := rfl
@[simp] theorem setHart_mxl (s : State) (i : HartInputs) :
    (setHart s i).mxl = i.mxl := rfl
@[simp] theorem setHart_pc (s : State) (i : HartInputs) :
    (setHart s i).pc = trunc i.mxl i.pc := rfl
@[simp] theorem setHart_x (s : State) (i : HartInputs) :
    (setHart s i).x = mapRegs (trunc i.mxl) i.x := rfl
@[simp] theorem setHart_memory (s : State) (i : HartInputs) :
    (setHart s i).memory = s.memory := rfl
@[simp] theorem setHart_matchRows (s : State) (i : HartInputs) :
    (setHart s i).matchRows = s.matchRows := rfl
@[simp] theorem setHart_moves (s : State) (i : HartInputs) :
    (setHart s i).moves = s.moves := rfl
@[simp] theorem setHart_draws (s : State) (i : HartInputs) :
    (setHart s i).draws = s.draws := rfl
@[simp] theorem setHart_lastRead (s : State) (i : HartInputs) :
    (setHart s i).lastRead = s.lastRead := rfl

/-! ### resetRegister -/

@[simp] theorem resetRegister_params (s : State) :
    (resetRegister s).params = s.params := rfl
@[simp] theorem resetRegister_pmpcfg4 (s : State) :
    (resetRegister s).pmpcfg4 = resetFields s.params s.draws := rfl
@[simp] theorem resetRegister_mode (s : State) :
    (resetRegister s).mode = s.mode := rfl
@[simp] theorem resetRegister_mxl (s : State) :
    (resetRegister s).mxl = s.mxl := rfl
@[simp] theorem resetRegister_pc (s : State) :
    (resetRegister s).pc = s.pc := rfl
@[simp] theorem resetRegister_x (s : State) :
    (resetRegister s).x = s.x := rfl
@[simp] theorem resetRegister_memory (s : State) :
    (resetRegister s).memory = s.memory := rfl
@[simp] theorem resetRegister_matchRows (s : State) :
    (resetRegister s).matchRows = s.matchRows := rfl
@[simp] theorem resetRegister_moves (s : State) :
    (resetRegister s).moves = s.moves := rfl
@[simp] theorem resetRegister_draws (s : State) :
    (resetRegister s).draws = s.draws + 1 := rfl
@[simp] theorem resetRegister_lastRead (s : State) :
    (resetRegister s).lastRead = s.lastRead := rfl

/-! ### setMoves -/

@[simp] theorem setMoves_params (s : State) (ms : List Move) :
    (setMoves s ms).params = s.params := rfl
@[simp] theorem setMoves_pmpcfg4 (s : State) (ms : List Move) :
    (setMoves s ms).pmpcfg4 = s.pmpcfg4 := rfl
@[simp] theorem setMoves_mode (s : State) (ms : List Move) :
    (setMoves s ms).mode = s.mode := rfl
@[simp] theorem setMoves_mxl (s : State) (ms : List Move) :
    (setMoves s ms).mxl = s.mxl := rfl
@[simp] theorem setMoves_pc (s : State) (ms : List Move) :
    (setMoves s ms).pc = s.pc := rfl
@[simp] theorem setMoves_x (s : State) (ms : List Move) :
    (setMoves s ms).x = s.x := rfl
@[simp] theorem setMoves_memory (s : State) (ms : List Move) :
    (setMoves s ms).memory = s.memory := rfl
@[simp] theorem setMoves_matchRows (s : State) (ms : List Move) :
    (setMoves s ms).matchRows = s.matchRows := rfl
@[simp] theorem setMoves_moves (s : State) (ms : List Move) :
    (setMoves s ms).moves = ms := rfl
@[simp] theorem setMoves_draws (s : State) (ms : List Move) :
    (setMoves s ms).draws = s.draws := rfl
@[simp] theorem setMoves_lastRead (s : State) (ms : List Move) :
    (setMoves s ms).lastRead = s.lastRead := rfl

/-! ### setMatchRows -/

@[simp] theorem setMatchRows_params (s : State) (rows : List MatchRow) :
    (setMatchRows s rows).params = s.params := rfl
@[simp] theorem setMatchRows_pmpcfg4 (s : State) (rows : List MatchRow) :
    (setMatchRows s rows).pmpcfg4 = s.pmpcfg4 := rfl
@[simp] theorem setMatchRows_mode (s : State) (rows : List MatchRow) :
    (setMatchRows s rows).mode = s.mode := rfl
@[simp] theorem setMatchRows_mxl (s : State) (rows : List MatchRow) :
    (setMatchRows s rows).mxl = s.mxl := rfl
@[simp] theorem setMatchRows_pc (s : State) (rows : List MatchRow) :
    (setMatchRows s rows).pc = s.pc := rfl
@[simp] theorem setMatchRows_x (s : State) (rows : List MatchRow) :
    (setMatchRows s rows).x = s.x := rfl
@[simp] theorem setMatchRows_memory (s : State) (rows : List MatchRow) :
    (setMatchRows s rows).memory = s.memory := rfl
@[simp] theorem setMatchRows_matchRows (s : State) (rows : List MatchRow) :
    (setMatchRows s rows).matchRows = rows := rfl
@[simp] theorem setMatchRows_moves (s : State) (rows : List MatchRow) :
    (setMatchRows s rows).moves = s.moves := rfl
@[simp] theorem setMatchRows_draws (s : State) (rows : List MatchRow) :
    (setMatchRows s rows).draws = s.draws := rfl
@[simp] theorem setMatchRows_lastRead (s : State) (rows : List MatchRow) :
    (setMatchRows s rows).lastRead = s.lastRead := rfl

/-! ### setLastRead -/

@[simp] theorem setLastRead_params (s : State) (v : Word) :
    (setLastRead s v).params = s.params := rfl
@[simp] theorem setLastRead_pmpcfg4 (s : State) (v : Word) :
    (setLastRead s v).pmpcfg4 = s.pmpcfg4 := rfl
@[simp] theorem setLastRead_mode (s : State) (v : Word) :
    (setLastRead s v).mode = s.mode := rfl
@[simp] theorem setLastRead_mxl (s : State) (v : Word) :
    (setLastRead s v).mxl = s.mxl := rfl
@[simp] theorem setLastRead_pc (s : State) (v : Word) :
    (setLastRead s v).pc = s.pc := rfl
@[simp] theorem setLastRead_x (s : State) (v : Word) :
    (setLastRead s v).x = s.x := rfl
@[simp] theorem setLastRead_memory (s : State) (v : Word) :
    (setLastRead s v).memory = s.memory := rfl
@[simp] theorem setLastRead_matchRows (s : State) (v : Word) :
    (setLastRead s v).matchRows = s.matchRows := rfl
@[simp] theorem setLastRead_moves (s : State) (v : Word) :
    (setLastRead s v).moves = s.moves := rfl
@[simp] theorem setLastRead_draws (s : State) (v : Word) :
    (setLastRead s v).draws = s.draws := rfl
@[simp] theorem setLastRead_lastRead (s : State) (v : Word) :
    (setLastRead s v).lastRead = some v := rfl

/-! ### storeBytes -/

@[simp] theorem storeBytes_params (s : State) (addr : Nat) (data : List Byte) :
    (storeBytes s addr data).params = s.params := rfl
@[simp] theorem storeBytes_pmpcfg4 (s : State) (addr : Nat) (data : List Byte) :
    (storeBytes s addr data).pmpcfg4 = s.pmpcfg4 := rfl
@[simp] theorem storeBytes_mode (s : State) (addr : Nat) (data : List Byte) :
    (storeBytes s addr data).mode = s.mode := rfl
@[simp] theorem storeBytes_mxl (s : State) (addr : Nat) (data : List Byte) :
    (storeBytes s addr data).mxl = s.mxl := rfl
@[simp] theorem storeBytes_pc (s : State) (addr : Nat) (data : List Byte) :
    (storeBytes s addr data).pc = s.pc := rfl
@[simp] theorem storeBytes_x (s : State) (addr : Nat) (data : List Byte) :
    (storeBytes s addr data).x = s.x := rfl
@[simp] theorem storeBytes_memory (s : State) (addr : Nat) (data : List Byte) :
    (storeBytes s addr data).memory = s.memory.writeBytes addr data := rfl
@[simp] theorem storeBytes_matchRows (s : State) (addr : Nat) (data : List Byte) :
    (storeBytes s addr data).matchRows = s.matchRows := rfl
@[simp] theorem storeBytes_moves (s : State) (addr : Nat) (data : List Byte) :
    (storeBytes s addr data).moves = s.moves := rfl
@[simp] theorem storeBytes_draws (s : State) (addr : Nat) (data : List Byte) :
    (storeBytes s addr data).draws = s.draws := rfl
@[simp] theorem storeBytes_lastRead (s : State) (addr : Nat) (data : List Byte) :
    (storeBytes s addr data).lastRead = s.lastRead := rfl

end Sys2Proof.Machine
end

