-- ==== Sys2Proof/Laws/Ops.lean ====
section
/-! SUPPORT. One lemma per shared operation: what it leaves in each thing a reader can see. -/

namespace Sys2Proof.Machine

/-! ### Fields -/

theorem field_impl {s : State} {n : Entry} (h : s.params.impl.get n = true) : field s n = s.pmpcfg4.get n := by
  simp [field, h]

theorem field_readOnly {s : State} {n : Entry} (h : s.params.impl.get n = false) : field s n = 0x00#8 := by
  simp [field, h]

/-- The fields depend on the parameters and the stored values alone. -/
theorem field_congr {s t : State} (hp : t.params = s.params) (hf : t.pmpcfg4 = s.pmpcfg4) (n : Entry) :
    field t n = field s n := by
  simp [field, hp, hf]

theorem newField_readOnly {p : Params} {n : Entry} (h : p.impl.get n = false) (m : Mxl) (old : Byte) (v : Word) :
    newField p m n old v = old := by
  have hw : ∀ new, writeField p m n old new = old := fun new => by simp [writeField, h]
  unfold newField
  split
  · exact hw _
  · split
    · exact hw _
    · rfl

/-- `CsrWrite`, field by field (R71). -/
theorem field_csrWrite (s : State) (v : Word) (n : Entry) :
    field (csrWrite s v) n = newField s.params s.mxl n (field s n) v := by
  cases h : s.params.impl.get n
  · rw [field_readOnly (by simpa using h), field_readOnly h, newField_readOnly h]
  · rw [field_impl (by simpa using h), field_impl h]
    simp

/-- A write either keeps a field or stores an accepted value (R71, R72). -/
theorem newField_cases (p : Params) (m : Mxl) (n : Entry) (old : Byte) (v : Word) :
    newField p m n old v = old ∨
    ∃ new, newField p m n old v = (new &&& 0x9f#8) ||| (old &&& 0x60#8) ∧ p.impl.get n = true ∧ lBit old = false ∧
      legal p.granularity new = true := by
  unfold newField
  split
  · exact (writeField_cases p m n old _).imp_right fun h => ⟨_, h⟩
  · split
    · exact (writeField_cases p m n old _).imp_right fun h => ⟨_, h⟩
    · exact .inl rfl

theorem newField_locked {p : Params} {m : Mxl} {n : Entry} {old : Byte} (h : lBit old = true) (v : Word) :
    newField p m n old v = old := by
  rcases newField_cases p m n old v with h' | ⟨_, _, _, hl, _⟩
  · exact h'
  · simp [h] at hl

/-- `slice` of the eight fields put side by side (R11). -/
theorem slice_append8 (b7 b6 b5 b4 b3 b2 b1 b0 : Byte) (n : Entry) :
    slice n (b7 ++ b6 ++ b5 ++ b4 ++ b3 ++ b2 ++ b1 ++ b0 : BitVec (8 + 8 + 8 + 8 + 8 + 8 + 8 + 8)) =
      (⟨b0, b1, b2, b3, b4, b5, b6, b7⟩ : PerEntry Byte).get n := by
  cases n <;> simp only [slice, fieldLsb, Entry.index, PerEntry.get] <;> ext i hi <;>
    simp only [BitVec.getElem_extractLsb', BitVec.getLsbD_append] <;>
    interval_cases i <;> simp

/-- `slice` of the four fields of the 32-bit format (R12). -/
theorem slice_append4 (b3 b2 b1 b0 : Byte) (n : Entry) :
    slice n ((b3 ++ b2 ++ b1 ++ b0 : BitVec (8 + 8 + 8 + 8)).setWidth 64) =
      (⟨b0, b1, b2, b3, 0#8, 0#8, 0#8, 0#8⟩ : PerEntry Byte).get n := by
  cases n <;> simp only [slice, fieldLsb, Entry.index, PerEntry.get] <;> ext i hi <;>
    simp only [BitVec.getElem_extractLsb', BitVec.getLsbD_setWidth, BitVec.getLsbD_append] <;>
    interval_cases i <;> simp

/-- What is read is `xlen()` bits wide (R70). -/
@[simp] theorem trunc_csrRead (s : State) : trunc s.mxl (csrRead s) = csrRead s := by
  unfold csrRead
  cases h : s.mxl
  · simp only [trunc]
    apply BitVec.eq_of_toNat_eq
    simp
  · rfl

/-! ### Registers -/

@[simp] theorem readX_zero (s : State) : readX s 0 = 0#64 := by simp [readX]

theorem readX_congr {s t : State} (hm : t.mxl = s.mxl) (hx : t.x = s.x) (i : RegIdx) : readX t i = readX s i := by
  simp [readX, hm, hx]

theorem readX_writeX_same {s : State} {i : RegIdx} (h : i.val ≠ 0) (v : Word) :
    readX (writeX s i v) i = trunc s.mxl v := by
  simp [readX, setReg, h]

theorem readX_writeX_other {s : State} {i j : RegIdx} (h : j ≠ i) (v : Word) : readX (writeX s i v) j = readX s j := by
  unfold readX
  by_cases hj : j.val = 0
  · simp [hj]
  · simp only [writeX_mxl, writeX_x, setReg, hj, dite_false]
    by_cases hi : i.val = 0
    · simp [hi]
    · have hne : i.val - 1 ≠ j.val - 1 := by
        intro hc; exact h (Fin.ext (by omega))
      simp only [hi, dite_false]
      rw [Vector.getElem_set_ne _ _ hne]

@[simp] theorem readX_advancePc (s : State) (i : RegIdx) : readX (advancePc s) i = readX s i :=
  readX_congr (by simp) (by simp) i

theorem mem_setReg {x : Vector Word 31} {i : RegIdx} {v w : Word} (h : w ∈ (setReg x i v).toList) :
    w = v ∨ w ∈ x.toList := by
  unfold setReg at h
  split at h
  · exact .inr h
  · rw [Vector.toList_set] at h
    exact (List.mem_or_eq_of_mem_set h).symm

theorem mem_mapRegs {f : Word → Word} {x : Vector Word 31} {w : Word} (h : w ∈ (mapRegs f x).toList) :
    ∃ v, w = f v := by
  have : (mapRegs f x).toList = x.toArray.toList.map f := rfl
  rw [this, List.mem_map] at h
  exact h.imp fun _ h => h.2.symm

/-! ### The PMP check -/

/-- Where an entry denies an access (R42, R43). -/
theorem pmpEntryCheck_denied {s : State} {n : Entry} {kind : AccessKind} {mode : Mode}
    (h : mode ≠ .M ∨ lBit (field s n) = true) (hp : permits (field s n) kind = false) (addr : Nat) :
    pmpEntryCheck s n kind mode addr = .raises (.accessFault kind addr) := by
  have hm : ¬ (mode = .M ∧ lBit (field s n) = false) := by
    rintro ⟨h1, h2⟩
    rcases h with h | h
    · exact h h1
    · simp [h] at h2
  simp [pmpEntryCheck, hm, hp]

/-- Where an entry lets an access through (R42, R43). -/
theorem pmpEntryCheck_allowed {s : State} {n : Entry} {kind : AccessKind} {mode : Mode}
    (h : (mode = .M ∧ lBit (field s n) = false) ∨ permits (field s n) kind = true) (addr : Nat) :
    pmpEntryCheck s n kind mode addr = .allowed := by
  unfold pmpEntryCheck
  split
  · rfl
  · exact if_pos (h.resolve_left ‹_›)

/-- An entry that governs an access decides it (R45, R46). -/
theorem gate_entry {s : State} {n : Entry} {addr len : Nat} (h : governing s addr len = some (.entry n))
    (kind : AccessKind) (mode : Mode) : gate s kind mode addr len = pmpEntryCheck s n kind mode addr := by
  simp [gate, h]

/-! ### The six instructions -/

@[simp] theorem writeOffer_params (s : State) (o : Option Word) : (writeOffer s o).params = s.params := by
  cases o <;> rfl

@[simp] theorem writeOffer_mxl (s : State) (o : Option Word) : (writeOffer s o).mxl = s.mxl := by cases o <;> rfl

@[simp] theorem writeOffer_mode (s : State) (o : Option Word) : (writeOffer s o).mode = s.mode := by cases o <;> rfl

@[simp] theorem writeOffer_pc (s : State) (o : Option Word) : (writeOffer s o).pc = s.pc := by cases o <;> rfl

@[simp] theorem writeOffer_x (s : State) (o : Option Word) : (writeOffer s o).x = s.x := by cases o <;> rfl

@[simp] theorem writeOffer_memory (s : State) (o : Option Word) : (writeOffer s o).memory = s.memory := by
  cases o <;> rfl

@[simp] theorem writeOffer_matchRows (s : State) (o : Option Word) : (writeOffer s o).matchRows = s.matchRows := by
  cases o <;> rfl

@[simp] theorem writeOffer_moves (s : State) (o : Option Word) : (writeOffer s o).moves = s.moves := by cases o <;> rfl

@[simp] theorem writeOffer_draws (s : State) (o : Option Word) : (writeOffer s o).draws = s.draws := by cases o <;> rfl

@[simp] theorem writeOffer_lastRead (s : State) (o : Option Word) : (writeOffer s o).lastRead = s.lastRead := by
  cases o <;> rfl

/-- Everything `csrUpdate` leaves. -/
theorem csrUpdate_done (s : State) (rd : RegIdx) (offer : Option Word) :
    CsrDone s rd offer (csrUpdate s rd offer) := by
  refine ⟨fun n => ?_, fun h => ?_, fun j h => ?_, ?_, ?_, ⟨?_, ?_, ?_, fun a => ?_, ?_, ?_, ?_, ?_⟩⟩
  · rw [csrUpdate, field_congr (s := writeOffer s offer) (by simp) (by simp)]
    cases offer with
    | none => rfl
    | some v => exact field_csrWrite s v n
  · rw [csrUpdate, readX_advancePc, readX_writeX_same h, writeOffer_mxl, trunc_csrRead]
  · rw [csrUpdate, readX_advancePc, readX_writeX_other h]
    exact readX_congr (by simp) (by simp) j
  all_goals simp [csrUpdate]

/-- How a CSR instruction ends: the four ways there are (R91, R92, R66). -/
theorem csrAccess_cases (i : Instr) (s d : State) :
    (s.params.smpmp = false ∧ csrAccess i s d = .refused .smpmpAbsent) ∨
    (s.params.smpmp = true ∧ i.csr ≠ pmpcfg4Addr ∧ csrAccess i s d = .refused (.otherCsr i.csr)) ∨
    (s.params.smpmp = true ∧ i.csr = pmpcfg4Addr ∧ s.mode ≠ .M ∧
      csrAccess i s d = .fault (.illegalInstruction (encode i))) ∨
    (CsrReady s ∧ i.csr = pmpcfg4Addr ∧ csrAccess i s d = .next d) := by
  unfold csrAccess CsrReady raise
  cases h : s.params.smpmp
  · simp
  · by_cases hc : i.csr = pmpcfg4Addr <;> by_cases hm : s.mode = .M <;> simp [hc, hm]

/-- A CSR instruction that may run runs. -/
theorem csrAccess_ready {i : Instr} {s : State} (hr : CsrReady s) (hc : i.csr = pmpcfg4Addr) (d : State) :
    csrAccess i s d = .next d := by
  simp [csrAccess, hr.1, hr.2, hc]

/-- All six meanings in one form. -/
theorem exec_eq (i : Instr) (s : State) : exec i s = csrAccess i s (csrUpdate s i.rd (offerOf i s)) := by
  cases i <;> rfl

/-- An instruction that answers a next state was ready and names `pmpcfg4`, and the next state is `csrUpdate`'s. -/
theorem exec_next {i : Instr} {s t : State} (h : exec i s = .next t) :
    CsrReady s ∧ i.csr = pmpcfg4Addr ∧ t = csrUpdate s i.rd (offerOf i s) := by
  rw [exec_eq] at h
  rcases csrAccess_cases i s (csrUpdate s i.rd (offerOf i s)) with ⟨_, e⟩ | ⟨_, _, e⟩ | ⟨_, _, _, e⟩ | ⟨hr, hc, e⟩
  all_goals rw [e] at h; cases h
  exact ⟨hr, hc, rfl⟩

end Sys2Proof.Machine
end

