-- ==== Sys2Proof/Laws/PerInstr.lean ====
section
/-! SUPPORT. The family of the opcode table's rows: where each row's parts stand in its word (R64, R66), one lemma per
constructor. -/

namespace Sys2Proof.Laws.RowBits

/-- The `funct3` column of R66. -/
def funct3Of : Instr → BitVec 3
  | .csrrw _ _ _ => 0b001#3
  | .csrrs _ _ _ => 0b010#3
  | .csrrc _ _ _ => 0b011#3
  | .csrrwi _ _ _ => 0b101#3
  | .csrrsi _ _ _ => 0b110#3
  | .csrrci _ _ _ => 0b111#3

/-- The word of an instruction has its row's opcode and `funct3`, and its `rd` and `csr`, at the bits of R64. -/
def Statement (i : Instr) : Prop :=
  (encode i).extractLsb' 0 7 = systemOpcode ∧ (encode i).extractLsb' 7 5 = bitsOfReg i.rd ∧
    (encode i).extractLsb' 12 3 = funct3Of i ∧ (encode i).extractLsb' 20 12 = i.csr

theorem csrrw (rd : RegIdx) (csr : CsrAddr) (rs1 : RegIdx) : Statement (.csrrw rd csr rs1) :=
  ⟨assemble_opcode _ _ _ _, assemble_rd _ _ _ _, assemble_funct3 _ _ _ _, assemble_csr _ _ _ _⟩

theorem csrrs (rd : RegIdx) (csr : CsrAddr) (rs1 : RegIdx) : Statement (.csrrs rd csr rs1) :=
  ⟨assemble_opcode _ _ _ _, assemble_rd _ _ _ _, assemble_funct3 _ _ _ _, assemble_csr _ _ _ _⟩

theorem csrrc (rd : RegIdx) (csr : CsrAddr) (rs1 : RegIdx) : Statement (.csrrc rd csr rs1) :=
  ⟨assemble_opcode _ _ _ _, assemble_rd _ _ _ _, assemble_funct3 _ _ _ _, assemble_csr _ _ _ _⟩

theorem csrrwi (rd : RegIdx) (csr : CsrAddr) (uimm : BitVec 5) : Statement (.csrrwi rd csr uimm) :=
  ⟨assemble_opcode _ _ _ _, assemble_rd _ _ _ _, assemble_funct3 _ _ _ _, assemble_csr _ _ _ _⟩

theorem csrrsi (rd : RegIdx) (csr : CsrAddr) (uimm : BitVec 5) : Statement (.csrrsi rd csr uimm) :=
  ⟨assemble_opcode _ _ _ _, assemble_rd _ _ _ _, assemble_funct3 _ _ _ _, assemble_csr _ _ _ _⟩

theorem csrrci (rd : RegIdx) (csr : CsrAddr) (uimm : BitVec 5) : Statement (.csrrci rd csr uimm) :=
  ⟨assemble_opcode _ _ _ _, assemble_rd _ _ _ _, assemble_funct3 _ _ _ _, assemble_csr _ _ _ _⟩

end Sys2Proof.Laws.RowBits
end

