-- ==== Sys2Proof/Laws/Step.lean ====
section
/-! SUPPORT. What a step can do, said once, and what a fetch finds where a word was placed. -/

namespace Sys2Proof.Machine

theorem settle_next {v : Verdict} {d t : State} (h : settle v d = .next t) : v = .allowed ∧ t = d := by
  cases v
  · simp only [settle, Host.Outcome.next.injEq] at h
    exact ⟨rfl, h.symm⟩
  · simp [settle, raise] at h

/-- A hart step that answers a next state fetched an instruction and ran it. -/
theorem hartStep_next {s t : State} (h : hartStep s = .next t) : ∃ i, fetch s = .instr i ∧ exec i s = .next t := by
  unfold hartStep raise at h
  cases hf : fetch s with
  | instr i => rw [hf] at h; exact ⟨i, rfl, h⟩
  | fault f => rw [hf] at h; cases h
  | refused r => rw [hf] at h; cases h

/-- Everything a move can do when it answers a next state. -/
theorem doMove_cases {m : Move} {s t : State} (h : doMove m s = .next t) :
    (m = .instruction ∧ ∃ i, fetch s = .instr i ∧ exec i s = .next t) ∨
    (∃ i, m = .reset i ∧ t = setHart (resetRegister s) i) ∨
    (∃ i, m = .hart i ∧ t = setHart s i) ∨
    (m = .csrRead ∧ s.mode = .M ∧ t = setLastRead s (csrRead s)) ∨
    (∃ v, m = .csrWrite v ∧ s.mode = .M ∧ t = csrWrite s v) ∨
    (∃ n kind mode addr, m = .pmpEntryCheck n kind mode addr ∧ entryVerdict s n kind mode addr = .allowed ∧ t = s) ∨
    (∃ tr, m = .transfer tr ∧ (t = s ∨ ∃ a d, t = storeBytes s a d)) ∨
    (∃ rows, m = .matching rows ∧ t = setMatchRows s rows) := by
  cases m with
  | instruction => exact .inl ⟨rfl, hartStep_next h⟩
  | reset i => cases h; exact .inr (.inl ⟨i, rfl, rfl⟩)
  | hart i => cases h; exact .inr (.inr (.inl ⟨i, rfl, rfl⟩))
  | csrRead =>
    simp only [doMove, moveCsrRead, raise] at h
    split at h
    · cases h; exact .inr (.inr (.inr (.inl ⟨rfl, ‹_›, rfl⟩)))
    · cases h
  | csrWrite v =>
    simp only [doMove, moveCsrWrite, raise] at h
    split at h
    · cases h; exact .inr (.inr (.inr (.inr (.inl ⟨v, rfl, ‹_›, rfl⟩))))
    · cases h
  | pmpEntryCheck n kind mode addr =>
    obtain ⟨hv, rfl⟩ := settle_next h
    exact .inr (.inr (.inr (.inr (.inr (.inl ⟨n, kind, mode, addr, rfl, hv, rfl⟩)))))
  | transfer tr =>
    refine .inr (.inr (.inr (.inr (.inr (.inr (.inl ⟨tr, rfl, ?_⟩))))))
    cases tr with
    | fetch a len => exact .inl (settle_next h).2
    | load a len => exact .inl (settle_next h).2
    | store a d => exact .inr ⟨a, d, (settle_next h).2⟩
    | amo a d => exact .inr ⟨a, d, (settle_next h).2⟩
  | matching rows => cases h; exact .inr (.inr (.inr (.inr (.inr (.inr (.inr ⟨rows, rfl, rfl⟩))))))

/-- A step that answers a next state made the next move on a hart with `Smpmp`. -/
theorem step_next {s t : State} (h : step s = .next t) :
    s.params.smpmp = true ∧ doMove (nextMove s) (setMoves s s.moves.tail) = .next t := by
  unfold step at h
  split at h
  · exact ⟨‹_›, h⟩
  · cases h

/-! ### Fetch -/

theorem fetchAddr_eq (s : State) (k : Nat) : fetchAddr s k = (s.pc.toNat + k) % 2 ^ xlen s.mxl := by
  rw [fetchAddr, trunc_toNat, BitVec.toNat_add, BitVec.toNat_ofNat]
  cases s.mxl <;> simp [xlen]

theorem fetchAddr_ne (s : State) {j k : Nat} (hj : j < 4) (hk : k < 4) (h : j ≠ k) : fetchAddr s j ≠ fetchAddr s k := by
  rw [fetchAddr_eq, fetchAddr_eq]
  cases s.mxl <;> simp only [xlen] <;> omega

theorem fetchAddr_congr {s t : State} (hm : t.mxl = s.mxl) (hp : t.pc = s.pc) (k : Nat) :
    fetchAddr t k = fetchAddr s k := by
  simp [fetchAddr, hm, hp]

/-- The fetch of a state whose memory is `placeWord s w` finds the bytes of `w`. -/
theorem fetchBytes_placeWord {s t : State} (w : InstrWord) (hm : t.mxl = s.mxl) (hp : t.pc = s.pc)
    (h : t.memory = placeWord s w) : fetchBytes t = some (bytesOfWord w) := by
  have e : ∀ k, fetchAddr t k = fetchAddr s k := fetchAddr_congr hm hp
  have d : ∀ j < 4, ∀ k < 4, j ≠ k → fetchAddr s j ≠ fetchAddr s k := fun j hj k hk h => fetchAddr_ne s hj hk h
  simp [fetchBytes, e, h, placeWord, Memory.read_write, bytesOfWord,
    d 0 (by omega) 1 (by omega) (by omega), d 0 (by omega) 2 (by omega) (by omega),
    d 0 (by omega) 3 (by omega) (by omega), d 1 (by omega) 2 (by omega) (by omega),
    d 1 (by omega) 3 (by omega) (by omega), d 2 (by omega) 3 (by omega) (by omega)]

/-- The four bytes of a word put together again are the word (R64). -/
theorem wordOfBytes_bytesOfWord (w : InstrWord) :
    wordOfBytes (w.extractLsb' 0 8) (w.extractLsb' 8 8) (w.extractLsb' 16 8) (w.extractLsb' 24 8) = w := by
  simp only [wordOfBytes]
  ext i hi
  simp only [BitVec.getElem_append, BitVec.getElem_extractLsb']
  split
  · simp [BitVec.getLsbD_eq_getElem hi]
  split
  · rw [show 8 + (i - 8) = i by omega]; simp [BitVec.getLsbD_eq_getElem hi]
  split
  · rw [show 16 + (i - 8 - 8) = i by omega]; simp [BitVec.getLsbD_eq_getElem hi]
  · rw [show 24 + (i - 8 - 8 - 8) = i by omega]; simp [BitVec.getLsbD_eq_getElem hi]

/-- An aligned address of the fetch leaves the alignment test satisfied. -/
theorem pcAligned_of_fetchablePc (s : State) : pcAligned { s with pc := fetchablePc s } = true := by
  unfold fetchablePc
  split
  · assumption
  · have h : ∀ p : Word, (p &&& ~~~ 3#64).toNat % 4 = 0 := by
      intro p
      have low : (p &&& ~~~ 3#64).setWidth 2 = 0#2 := by
        ext i hi
        have : i = 0 ∨ i = 1 := by omega
        rcases this with rfl | rfl <;> simp
      have e := congrArg BitVec.toNat low
      rw [BitVec.toNat_setWidth] at e
      exact e
    simp only [pcAligned, fetchAddr_eq, Bool.or_eq_true, beq_iff_eq]
    left
    have := h s.pc
    cases s.mxl <;> simp only [xlen] <;> omega

end Sys2Proof.Machine
end

