-- ==== Sys2Proof/Tests/Slice0.lean ====
section
/-! SUPPORT. The model's own tests: the vectors of spec/95_test_vectors.md (derived there from the rules), decoding of
words written out from R64, the WellFormed smoke test, and a witness for the hypotheses of each statement. -/

namespace Sys2Proof.Tests

open Sys2Proof Sys2Proof.Machine

/-! ### Small states -/

/-- Every entry the same. -/
def allEntries {α : Type} (a : α) : PerEntry α := PerEntry.ofFn fun _ => a

/-- The parameters of the vectors' defaults, with this granularity (95_test_vectors.md sections 2 to 4). -/
def paramsOf (g : Nat) : Params :=
  { granularity := g, impl := allEntries true, pmp20XlenGuard := true, compressed := false, smpmp := true }

/-- A 64-bit picture `F[23] ++ … ++ F[16]` as fields. -/
def picture (v : Word) : PerEntry Byte := PerEntry.ofFn fun n => slice n v

/-- The stored fields as a 64-bit picture. -/
def stored (s : State) : Word := csrRead { s with mxl := .mxl1 }

/-- A state in mode `M` at `pc = 0x1000` with these fields and `x5`. -/
def start (m : Mxl) (g : Nat) (fields x5 : Word) : State :=
  { params := paramsOf g, pmpcfg4 := picture fields, mode := .M, mxl := m, pc := 0x1000#64,
    x := (Vector.replicate 31 0#64).set 4 x5, memory := [], matchRows := [], moves := [], draws := 0, lastRead := none }

def nextOf (r : Result) : Option State :=
  match r with
  | .next t => some t
  | .fault _ => none
  | .refused _ => none

def faultOf (r : Result) : Option Fault :=
  match r with
  | .next _ => none
  | .fault f => some f
  | .refused _ => none

def refusalOf (r : Result) : Option Refusal :=
  match r with
  | .next _ => none
  | .fault _ => none
  | .refused f => some f

theorem next_of_some {r : Result} (h : (nextOf r).isSome = true) : ∃ t, r = .next t := by
  cases r with
  | next t => exact ⟨t, rfl⟩
  | fault f => cases h
  | refused f => cases h

/-- One word placed and run: the fields after, the value of `x[i]` after, `pc` after. -/
def run (s : State) (w : Nat) (i : RegIdx) : Option (Word × Word × Word) :=
  (nextOf (step (s.withFetchWord 32 w))).map fun t => (stored t, readX t i, t.pc)

/-! ### WellFormed -/

/-- The one check of WellFormed: another CSR address is refused (R66, decoder vector 3A529373). -/
theorem test_wellFormed_refuses_other_csr : ¬ (Instr.csrrw 6 0x3a5#12 5).WellFormed := by decide

theorem test_wellFormed_accepts_pmpcfg4 : (Instr.csrrw 6 0x3a4#12 5).WellFormed := by decide

/-! ### Decoding: words written out bit by bit from the format of R64 (csr, rs1/uimm, funct3, rd, opcode) -/

theorem test_decode_csrrw :
    decodeWord 0b001110100100_00101_001_00110_1110011#32 = .ok (.csrrw 6 0x3a4#12 5) := by decide
theorem test_decode_csrrs :
    decodeWord 0b001110100100_00000_010_00111_1110011#32 = .ok (.csrrs 7 0x3a4#12 0) := by decide
theorem test_decode_csrrc :
    decodeWord 0b001110100100_00101_011_00110_1110011#32 = .ok (.csrrc 6 0x3a4#12 5) := by decide
theorem test_decode_csrrwi :
    decodeWord 0b001110100100_11111_101_00110_1110011#32 = .ok (.csrrwi 6 0x3a4#12 31#5) := by decide
theorem test_decode_csrrsi :
    decodeWord 0b001110100100_00010_110_00110_1110011#32 = .ok (.csrrsi 6 0x3a4#12 2#5) := by decide
theorem test_decode_csrrci :
    decodeWord 0b001110100100_11000_111_00000_1110011#32 = .ok (.csrrci 0 0x3a4#12 24#5) := by decide

/-- The pseudo-instructions of R67 are words of the six (section 7, programs 1 and 2). -/
theorem test_pseudo_instructions :
    encode (.csrr 7 0x3a4#12) = 0x3a4023f3#32 ∧ encode (.csrw 0x3a4#12 5) = 0x3a429073#32 ∧
    encode (.csrs 0x3a4#12 8) = 0x3a442073#32 ∧ encode (.csrc 0x3a4#12 6) = 0x3a433073#32 ∧
    encode (.csrwi 0x3a4#12 0) = 0x3a405073#32 ∧ encode (.csrsi 0x3a4#12 3) = 0x3a41e073#32 ∧
    encode (.csrci 0x3a4#12 24) = 0x3a4c7073#32 := by decide

/-- The refused decoder vectors of 95_test_vectors.md section 4. -/
theorem test_decode_rejects :
    decodeTableWord 32 0x3a400073 = none ∧ decodeTableWord 32 0x3a404073 = none ∧
    decodeTableWord 32 0x3a429372 = none ∧ decode [0x73#8, 0x93#8] = .error .tooShort := by decide

/-- The bytes stand least significant first (R64). -/
theorem test_decode_bytes : decode [0x73#8, 0x93#8, 0x42#8, 0x3a#8] = .ok (.csrrw 6 0x3a4#12 5, []) := by decide

/-- The `match` column of R66, any CSR: the table's own rows. -/
theorem test_decode_table_rows :
    decodeTableWord 32 0x00001073 = some (.csrrw 0 0#12 0) ∧ decodeTableWord 32 0x00002073 = some (.csrrs 0 0#12 0) ∧
    decodeTableWord 32 0x00003073 = some (.csrrc 0 0#12 0) ∧ decodeTableWord 32 0x00005073 = some (.csrrwi 0 0#12 0#5) ∧
    decodeTableWord 32 0x00006073 = some (.csrrsi 0 0#12 0#5) ∧
    decodeTableWord 32 0x00007073 = some (.csrrci 0 0#12 0#5) := by decide

/-! ### One field: vectors of section 2 (R72) -/

/-- Section 2, rows 1 to 8: plain accept, lock, reserved combinations. -/
theorem test_writeField_accept_lock_reserved :
    ([(0x00, 0x1f), (0x00, 0x9f), (0x9f, 0x00), (0x80, 0x1f), (0x00, 0x02), (0x00, 0x06), (0x00, 0x82), (0x1f, 0x1a)] :
      List (Byte × Byte)).map (fun c => writeField (paramsOf 0) .mxl1 .e16 c.1 c.2) =
    [0x1f, 0x9f, 0x9f, 0x80, 0x00, 0x00, 0x00, 0x1f] := by decide

/-- Section 2, rows 9 to 13, 18, 23: NA4 by granularity. -/
theorem test_writeField_na4 :
    ([(0, 0x00, 0x17), (1, 0x00, 0x17), (2, 0x00, 0x17), (12, 0x00, 0x17), (2, 0x1f, 0x10), (2, 0x00, 0xff),
      (2, 0x00, 0x18)] : List (Nat × Byte × Byte)).map (fun c => writeField (paramsOf c.1) .mxl1 .e16 c.2.1 c.2.2) =
    [0x17, 0x17, 0x00, 0x00, 0x1f, 0x9f, 0x18] := by decide

/-- Section 2, rows 14 to 17, 19 to 22, 24 to 27: bits 6:5, permissions, write-back. -/
theorem test_writeField_reserved_bits :
    ([(0x00, 0x7f), (0x60, 0x1f), (0x60, 0x00), (0x00, 0xff), (0x00, 0x03), (0x00, 0x01), (0x00, 0x04), (0x00, 0x08),
      (0x7f, 0x80), (0x00, 0x60), (0x1d, 0x1d), (0x00, 0xfe)] : List (Byte × Byte)).map
      (fun c => writeField (paramsOf 0) .mxl1 .e16 c.1 c.2) =
    [0x1f, 0x7f, 0x60, 0x9f, 0x03, 0x01, 0x04, 0x08, 0xe0, 0x00, 0x1d, 0x00] := by decide

/-- Section 2, the guard table: fields 20 to 23 keep their value at 32 bits. -/
theorem test_writeField_guard :
    Entry.all.map (fun n => writeField (paramsOf 0) .mxl0 n 0x00#8 0x1f#8) =
      [0x1f#8, 0x1f#8, 0x1f#8, 0x1f#8, 0x00#8, 0x00#8, 0x00#8, 0x00#8] ∧
    Entry.all.map (fun n => writeField (paramsOf 0) .mxl1 n 0x00#8 0x1f#8) = List.replicate 8 0x1f#8 := by decide

/-! ### The whole register: vectors of section 3 (R70, R71) -/

/-- Section 3, rows 1 to 5 and 9. -/
theorem test_csrWrite_vectors :
    stored (csrWrite (start .mxl1 0 0#64 0#64) 0x000000000f1b9d1f#64) = 0x000000000f1b9d1f#64 ∧
    stored (csrWrite (start .mxl1 0 0x000000000f1b9d1f#64 0#64) 0xffffffffffffffff#64) = 0x9f9f9f9f9f9f9d9f#64 ∧
    stored (csrWrite (start .mxl1 0 0x000000000f1b9d1f#64 0#64) 0x1f1f1f1f00000000#64) = 0x1f1f1f1f00009d00#64 ∧
    stored (csrWrite (start .mxl1 2 0#64 0#64) 0x1f17021f9b1a0f98#64) = 0x1f00001f9b000f98#64 ∧
    stored (csrWrite (start .mxl0 0 0x1f1d1b0f00000000#64 0#64) 0x9f1f1f1f#64) = 0x1f1d1b0f9f1f1f1f#64 ∧
    csrRead (csrWrite (start .mxl0 0 0x1f1d1b0f00000000#64 0#64) 0x9f1f1f1f#64) = 0x9f1f1f1f#64 ∧
    stored (csrWrite (start .mxl1 0 0x989b#64 0#64) 0x1f1f1f1f1f1f1f1f#64) = 0x1f1f1f1f1f1f989b#64 := by decide

/-- The state of row 6: 32 bits, the guard of field 20 off. -/
def unguarded : State :=
  { start .mxl0 0 0x1f1d1b0f00000000#64 0#64 with params := { paramsOf 0 with pmp20XlenGuard := false } }

/-- The states of rows 7 and 8: `CFG_D1`, and fields 16 and 17 alone implemented. -/
def cfgD1 : State := { start .mxl1 2 0#64 0#64 with params := { paramsOf 2 with impl := allEntries false } }
def partly : State :=
  { start .mxl1 1 0x6000#64 0#64 with
    params := { paramsOf 1 with impl := { allEntries false with pmp16cfg := true, pmp17cfg := true } } }

/-- Section 3, rows 6 to 8. -/
theorem test_csrWrite_configurations :
    stored (csrWrite unguarded 0x9f1f1f1f#64) = 0x1f1d1b009f1f1f1f#64 ∧
    stored (csrWrite cfgD1 0xffffffffffffffff#64) = 0#64 ∧
    stored (csrWrite partly 0xffffffffffffffff#64) = 0xff9f#64 := by decide

/-! ### The six instructions: vectors of section 4, each word placed at `pc` and run by `step` -/

/-- Vectors 1 and 2. -/
theorem test_csrrw : run (start .mxl1 0 0#64 0x0f1b9d1f#64) 0x3a429373 6 = some (0x0f1b9d1f#64, 0#64, 0x1004#64) ∧
    run (start .mxl1 0 0#64 0x0f1b9d1f#64) 0x3a429073 0 = some (0x0f1b9d1f#64, 0#64, 0x1004#64) := by decide

/-- Vector 3: `rd = rs1`. -/
theorem test_csrrw_swap : run (start .mxl1 0 0x989b#64 0x1f1f1f1f1f1f1f1f#64) 0x3a4292f3 5 =
    some (0x1f1f1f1f1f1f989b#64, 0x989b#64, 0x1004#64) := by decide

/-- Vectors 4 to 7. -/
theorem test_csrrs : run (start .mxl1 0 0x0f1b9d1f#64 0#64) 0x3a402373 6 = some (0x0f1b9d1f#64, 0x0f1b9d1f#64, 0x1004#64) ∧
    run (start .mxl1 0 0x0f1b9d1f#64 0x80#64) 0x3a42a373 6 = some (0x0f1b9d9f#64, 0x0f1b9d1f#64, 0x1004#64) ∧
    run (start .mxl1 0 0#64 2#64) 0x3a42a073 0 = some (0#64, 0#64, 0x1004#64) ∧
    run (start .mxl1 0 0x0f1b9d1f#64 0#64) 0x3a42a373 6 = some (0x0f1b9d1f#64, 0x0f1b9d1f#64, 0x1004#64) := by decide

/-- Vectors 8 to 10. -/
theorem test_csrrc : run (start .mxl1 0 0x0f1b9d1f#64 0x10001#64) 0x3a42b373 6 =
      some (0x0f1b9d1f#64, 0x0f1b9d1f#64, 0x1004#64) ∧
    run (start .mxl1 0 0x0f1b9d1f#64 0x30003#64) 0x3a42b073 0 = some (0x0f189d1c#64, 0#64, 0x1004#64) ∧
    run (start .mxl1 0 0x0f1b9d1f#64 0x8000#64) 0x3a42b073 0 = some (0x0f1b9d1f#64, 0#64, 0x1004#64) := by decide

/-- Vectors 11 and 12. -/
theorem test_csrrwi : run (start .mxl1 0 0x0f1b9d1f#64 0#64) 0x3a4fd373 6 = some (0x9d1f#64, 0x0f1b9d1f#64, 0x1004#64) ∧
    run (start .mxl1 0 0x0f1b9d9f#64 0#64) 0x3a405073 0 = some (0x9d9f#64, 0#64, 0x1004#64) := by decide

/-- Vectors 13 to 15. -/
theorem test_csrrsi : run (start .mxl1 0 0#64 0#64) 0x3a416373 6 = some (0#64, 0#64, 0x1004#64) ∧
    run (start .mxl1 0 0#64 0#64) 0x3a41e073 0 = some (3#64, 0#64, 0x1004#64) ∧
    run (start .mxl1 0 0x0f1b9d1f#64 0#64) 0x3a406373 6 = some (0x0f1b9d1f#64, 0x0f1b9d1f#64, 0x1004#64) := by decide

/-- Vectors 16 and 17. -/
theorem test_csrrci : run (start .mxl1 0 0x0f1b9d1f#64 0#64) 0x3a43f073 0 = some (0x0f1b9d18#64, 0#64, 0x1004#64) ∧
    run (start .mxl1 0 0x0f1b9d1f#64 0#64) 0x3a40f373 6 = some (0x0f1b9d1f#64, 0x0f1b9d1f#64, 0x1004#64) := by decide

/-- Vector 18: `MXL = 0`. -/
theorem test_csrrci_32bit : run (start .mxl0 0 0x9f00001f#64 0#64) 0x3a4c7073 0 =
    some (0x9f000007#64, 0#64, 0x1004#64) := by decide

/-- Vectors 19 and 20: outside `M` (R91). -/
theorem test_illegalInstruction :
    faultOf (step ({ start .mxl1 0 0#64 0#64 with mode := .U }.withFetchWord 32 0x3a402373)) =
      some (.illegalInstruction 0x3a402373#32) ∧
    faultOf (step ({ start .mxl1 0 0#64 0#64 with mode := .S }.withFetchWord 32 0x3a429073)) =
      some (.illegalInstruction 0x3a429073#32) := by decide

/-- Other words and other registers are refused by name (R66). -/
theorem test_refusals :
    refusalOf (step ((start .mxl1 0 0#64 0#64).withFetchWord 32 0x3a529373)) = some (.otherCsr 0x3a5#12) ∧
    refusalOf (step ((start .mxl1 0 0#64 0#64).withFetchWord 32 0x3a400073)) =
      some (.undecodable (.notCsrFunct3 0#3)) ∧
    refusalOf (step (start .mxl1 0 0#64 0#64)) = some (.endOfRun 0x1000) := by decide

/-- From the state after reset, with a word placed at `pc`, each row runs as the first instruction. -/
theorem test_runs_from_reset :
    [0x3a401073, 0x3a402073, 0x3a403073, 0x3a405073, 0x3a406073, 0x3a407073].map
      (fun w => (nextOf (step (State.reset.withFetchWord 32 w))).isSome) = List.replicate 6 true := by decide

/-! ### The PMP check: table of section 5 (R46) -/

/-- The four kinds allowed or not, for a field value and a mode. -/
def row (f : Word) (m : Mode) : List Bool :=
  [AccessKind.fetch, .load, .store, .amo].map fun k =>
    decide (entryVerdict (start .mxl1 0 f 0#64) .e16 k m 0x80 = .allowed)

theorem test_pmpEntryCheck_table :
    row 0x1f#64 .M = [true, true, true, true] ∧ row 0x1f#64 .U = [true, true, true, true] ∧
    row 0x18#64 .M = [true, true, true, true] ∧ row 0x18#64 .U = [false, false, false, false] ∧
    row 0x98#64 .M = [false, false, false, false] ∧ row 0x9d#64 .M = [true, true, false, false] ∧
    row 0x1d#64 .M = [true, true, true, true] ∧ row 0x1d#64 .U = [true, true, false, false] ∧
    row 0x99#64 .M = [false, true, false, false] ∧ row 0x9b#64 .M = [false, true, true, true] ∧
    row 0x0c#64 .U = [true, false, false, false] ∧ row 0x7f#64 .U = [true, true, true, true] ∧
    row 0x87#64 .M = [true, true, true, true] ∧ row 0x00#64 .U = [true, true, true, true] := by decide

/-- End state of program 1: a store governed by entry 17 faults even in `M`, a load does not (section 7). -/
theorem test_store_denied_in_M :
    faultOf (step { start .mxl1 0 0x9d9f#64 0#64 with
      matchRows := [⟨0x80, 1, .entry .e17⟩], moves := [.transfer (.store 0x80 [0x11#8])] }) =
      some (.accessFault .store 0x80) ∧
    ((nextOf (step { start .mxl1 0 0x9d9f#64 0#64 with
      matchRows := [⟨0x80, 1, .entry .e17⟩], moves := [.transfer (.load 0x80 1)] })).isSome) = true := by decide

/-! ### Reset (section 6) -/

/-- Every raw draw gives one of the legal values, and the drawn reserved bits show (R28, R29, R31). -/
theorem test_resetField :
    resetField (paramsOf 0) .e16 0x9f#8 0#2 = 0x9f#8 ∧ resetField (paramsOf 0) .e16 0x17#8 3#2 = 0x77#8 ∧
    legal 0 (resetField (paramsOf 0) .e16 0x02#8 0#2) = true ∧ legal 2 (resetField (paramsOf 2) .e16 0x17#8 0#2) = true ∧
    resetField cfgD1.params .e16 0xff#8 3#2 = 0x00#8 := by decide

/-! ### Witnesses: states and operands that meet the hypotheses of each statement -/

/-- A ready hart with an unlocked and a locked field, and `x5` to write. -/
def ready : State := start .mxl1 0 0x0f1b9d1f#64 0x9b#64

/-- The same hart in mode `U`. -/
def user : State := { ready with mode := .U }

/-- `ready` about to run the word of `csrrw x6, pmpcfg4, x5`. -/
def loaded : State := ready.withFetchWord 32 0x3a429373

/-- `ready` with these moves. -/
def withMoves (ms : List Move) : State := { ready with moves := ms }

/-- The inputs of a reset or of the hart. -/
def inputs : HartInputs := { mode := .U, mxl := .mxl0, pc := 0x2000#64, x := Vector.replicate 31 7#64 }

/-- `loaded` with its fetch governed by the locked entry 17 without `X`. -/
def denied : State :=
  { loaded with pmpcfg4 := picture 0x999b#64, matchRows := [⟨0x1000, 4, .entry .e17⟩] }

theorem witness_EncodeOfDecodeIsTheWord : decodeWord 0x3a429373#32 = .ok (.csrrw 6 0x3a4#12 5) := by decide

theorem witness_CsrReadShowsFieldsAtTheirLocations :
    sliceExists ready.mxl .e23 = true ∧ sliceExists Mxl.mxl0 .e19 = true ∧ sliceExists Mxl.mxl0 .e20 = false := by decide

theorem witness_SubFieldsStandAtThePrintedBits : ready.mxl = .mxl1 := by decide

theorem witness_WriteFieldRefinesThePrintedFunctions :
    (paramsOf 0).impl.get .e20 = true ∧ (Entry.e20 = .e20 → Mxl.mxl1 = .mxl1 ∨ (paramsOf 0).pmp20XlenGuard = false) := by
  decide

/-- One state and field for each of the three clauses: field 19 at 32 bits, field 20 unguarded at 32 bits, field 21 at
32 bits. -/
theorem witness_CsrWriteUpdatesEachFieldFromTheOldState :
    (fieldLsb .e19 + 7 < xlen unguarded.mxl) ∧
    (¬ fieldLsb .e20 + 7 < xlen unguarded.mxl ∧ Entry.e20 = .e20 ∧ unguarded.params.pmp20XlenGuard = false) ∧
    (¬ fieldLsb .e21 + 7 < xlen unguarded.mxl ∧ ¬ (Entry.e21 = .e20 ∧ unguarded.params.pmp20XlenGuard = false)) := by
  decide

theorem witness_ThirtyTwoBitWriteKeepsUpperFields :
    (start .mxl0 0 0#64 0#64).mxl = .mxl0 ∧ (start .mxl0 0 0#64 0#64).params.pmp20XlenGuard = true := by decide

theorem witness_UnguardedPmp20IsClearedByThirtyTwoBitWrites :
    unguarded.mxl = .mxl0 ∧ unguarded.params.pmp20XlenGuard = false ∧ unguarded.params.impl.get .e20 = true := by decide

theorem witness_ReadOnlyFieldIsAlwaysZero :
    cfgD1.params.impl.get .e16 = false ∧ ∃ t, step (cfgD1.withFetchWord 32 0x3a429373) = .next t :=
  ⟨by decide, next_of_some (by decide)⟩

theorem witness_WriteBackIsTheIdentity : ready.mxl = .mxl1 ∨ ready.params.pmp20XlenGuard = true := by decide

theorem witness_CfgD1ReadsZeroAndIgnoresWrites : IsCfgD1 cfgD1 :=
  ⟨by decide, fun n => by cases n <;> decide, by decide⟩

/-- Both sides, an implemented field and one that is not, and the last field of the 32-bit format. -/
theorem witness_ProbeWriteRevealsImplementation :
    (sliceExists ready.mxl .e16 = true ∧ lBit (field ready .e16) = false ∧
      legal ready.params.granularity (slice .e16 0x9b#64) = true ∧ slice .e16 0x9b#64 &&& 0x9f#8 ≠ 0x00#8 ∧
      ready.params.impl.get .e16 = true) ∧
    (sliceExists cfgD1.mxl .e16 = true ∧ lBit (field cfgD1 .e16) = false ∧
      legal cfgD1.params.granularity (slice .e16 0x9b#64) = true ∧ cfgD1.params.impl.get .e16 = false) ∧
    (sliceExists unguarded.mxl .e19 = true ∧ unguarded.mxl = .mxl0 ∧ lBit (field unguarded .e19) = false ∧
      legal unguarded.params.granularity (slice .e19 0x9b000000#64) = true ∧
      slice .e19 0x9b000000#64 &&& 0x9f#8 ≠ 0x00#8) := by decide

/-- For the six result statements: both clauses, `M` and not `M`. -/
theorem witness_InstructionResults :
    (user.params.smpmp = true ∧ user.mode ≠ .M) ∧ (ready.params.smpmp = true ∧ ready.mode = .M) := by decide

theorem witness_CsrReady : CsrReady ready := ⟨by decide, by decide⟩

theorem witness_ZeroMaskActsLikeX0 :
    CsrReady ready ∧ readX ready 9 = 0#64 ∧ (ready.mxl = .mxl1 ∨ ready.params.pmp20XlenGuard = true) :=
  ⟨witness_CsrReady, by decide, by decide⟩

theorem witness_ImmediateForms :
    CsrReady ready ∧ (ready.mxl = .mxl1 ∨ ready.params.pmp20XlenGuard = true) ∧
    Instr.csrrwi 6 0x3a4#12 31#5 ∈ [Instr.csrrwi 6 0x3a4#12 31#5, .csrrsi 6 0x3a4#12 31#5, .csrrci 6 0x3a4#12 31#5] ∧
    Instr.csrrci 6 0x3a4#12 31#5 ∈ [Instr.csrrsi 6 0x3a4#12 31#5, .csrrci 6 0x3a4#12 31#5] :=
  ⟨witness_CsrReady, by decide, by decide⟩

theorem witness_NoInstructionFaultsInModeM : ready.mode = .M := by decide

theorem witness_OtherCsrIsRefused : ready.params.smpmp = true ∧ ¬ (Instr.csrrw 6 0x3a5#12 5).WellFormed := by decide

theorem witness_HartWithoutSmpmpIsRefused :
    ({ ready with params := { paramsOf 0 with smpmp := false } } : State).params.smpmp = false := by decide

theorem witness_InstructionsKeepPcAligned :
    (∃ t, exec (.csrrw 6 0x3a4#12 5) ready = .next t) ∧ fetchAddr ready 0 % 4 = 0 :=
  ⟨next_of_some (by decide), by decide⟩

/-- Both clauses: an unlocked entry in `M`; a locked entry in `M`, and an unlocked one outside `M`. -/
theorem witness_EntryCheckFollowsTheTable :
    (lBit (field ready .e16) = false ∧ Mode.M = .M) ∧ lBit (field ready .e17) = true ∧ Mode.U ≠ .M := by decide

theorem witness_OffEntryGovernsNothingButStillLocks :
    aMode (field (start .mxl1 0 0x80#64 0#64) .e16) = .off ∧ lBit (field (start .mxl1 0 0x80#64 0#64) .e16) = true := by
  decide

theorem witness_GoverningImpliesMatching : governing denied 0x1000 4 = some (.entry .e17) := by decide

theorem witness_DeniedFetchFaultsBeforeDecoding :
    denied.params.smpmp = true ∧ nextMove denied = .instruction ∧ pcAligned denied = true ∧
    governing denied (fetchAddr denied 0) 4 = some (.entry .e17) ∧ lBit (field denied .e17) = true ∧
    xBit (field denied .e17) = false := by decide

/-- `denied` about to make this access, governed by these rows. -/
def accessing (m : Move) (rows : List MatchRow) : State := { denied with moves := [m], matchRows := rows }

/-- A store governed by the locked entry 17 without `W`. -/
def storeDenied : State := accessing (.transfer (.store 0x80 [1#8])) [⟨0x80, 1, .entry .e17⟩]

/-- A store and an AMO, in each clause: denied by the locked entry 17 in `M`, let through by no entry, and let through by
the unlocked entry 16. -/
theorem witness_StoresAreCheckedThenWriteTheirBytes :
    ∀ m ∈ [(AccessKind.store, Move.transfer (.store 0x80 [1#8])), (AccessKind.amo, Move.transfer (.amo 0x80 [1#8]))],
      (accessing m.2 []).params.smpmp = true ∧ (accessing m.2 []).moves = m.2 :: [] ∧
      gate (accessing m.2 []) m.1 (accessing m.2 []).mode 0x80 [1#8].length = .allowed ∧
      gate storeDenied m.1 .M 0x80 [1#8].length = .raises (.accessFault m.1 0x80) ∧
      (governing storeDenied 0x80 [1#8].length = some (.entry .e17) ∧ lBit (field storeDenied .e17) = true ∧
        wBit (field storeDenied .e17) = false) ∧
      (governing (accessing m.2 [⟨0x80, 1, .entry .e16⟩]) 0x80 [1#8].length = some (.entry .e16) ∧
        wBit (field (accessing m.2 [⟨0x80, 1, .entry .e16⟩]) .e16) = true) := by
  decide

/-- A hart whose next fetch, after the instruction at `0x1000`, is governed by entry `n`. -/
def aboutToLock (m : Mxl) (n : Entry) (x5 : Word) : State :=
  { start m 0 0#64 x5 with matchRows := [⟨0x1004, 4, .entry n⟩] }

/-- What the last clause asks of the state after `csrrw x6, pmpcfg4, x5`. -/
def nextFetchGoverned (s : State) (n : Entry) : Bool :=
  match nextOf (exec (.csrrw 6 0x3a4#12 5) s) with
  | some t => nextMove t == .instruction && pcAligned t && governing t (fetchAddr t 0) 4 == some (.entry n)
  | none => false

/-- `x5 = 0x9b` locks entry 16 without `X`, and `0x9b000000` entry 19 with `MXL = 0`; each then governs the next
fetch. -/
theorem witness_LockingWriteDeniesTheNextFetch :
    ∀ c ∈ [(Mxl.mxl1, Entry.e16, 0x9b#64), (Mxl.mxl0, Entry.e19, 0x9b000000#64)],
      (aboutToLock c.1 c.2.1 c.2.2).params.smpmp = true ∧ (aboutToLock c.1 c.2.1 c.2.2).mode = .M ∧
      sliceExists (aboutToLock c.1 c.2.1 c.2.2).mxl c.2.1 = true ∧
      (aboutToLock c.1 c.2.1 c.2.2).params.impl.get c.2.1 = true ∧
      lBit (field (aboutToLock c.1 c.2.1 c.2.2) c.2.1) = false ∧
      legal (aboutToLock c.1 c.2.1 c.2.2).params.granularity (slice c.2.1 (readX (aboutToLock c.1 c.2.1 c.2.2) 5)) =
        true ∧
      lBit (slice c.2.1 (readX (aboutToLock c.1 c.2.1 c.2.2) 5)) = true ∧
      xBit (slice c.2.1 (readX (aboutToLock c.1 c.2.1 c.2.2) 5)) = false ∧
      nextFetchGoverned (aboutToLock c.1 c.2.1 c.2.2) c.2.1 = true := by
  decide

/-- Both clauses: implemented and not. -/
theorem witness_ResetFieldsAreLegalOrZero :
    (paramsOf 0).impl.get .e16 = true ∧ cfgD1.params.impl.get .e16 = false := by decide

theorem witness_ResetDrawReachesEveryLegalValue :
    (paramsOf 2).impl.get .e23 = true ∧ legal (paramsOf 2).granularity 0xff#8 = true := by decide

theorem witness_ResetMoveDrawsAfresh :
    (withMoves [.reset inputs]).params.smpmp = true ∧ (withMoves [.reset inputs]).moves = .reset inputs :: [] := by decide

theorem inv_ready : Inv loaded := by
  refine ⟨fun n _ => ?_, fun n h => ?_, ⟨rfl, fun v _ => rfl⟩, by decide⟩
  · cases n <;> decide
  · cases n <;> exact absurd h (by decide)

theorem witness_EveryStepKeepsTheInvariant : Inv loaded ∧ ∃ t, step loaded = .next t :=
  ⟨inv_ready, next_of_some (by decide)⟩

theorem noReset_loaded : NoReset loaded := by
  intro i h
  have : nextMove loaded = .instruction := by decide
  rw [this] at h
  cases h

/-- For the statements about a locked field: entry 17 is locked, the step is no reset and completes. -/
theorem witness_LockedField :
    lBit (field loaded .e17) = true ∧ NoReset loaded ∧ ∃ t, step loaded = .next t :=
  ⟨by decide, noReset_loaded, next_of_some (by decide)⟩

/-- For ReservedBitsNeverChangeUntilReset, and with a field that does change for FieldsChangeOnlyByAcceptedWrites. -/
theorem witness_FieldsChangeOnlyByAcceptedWrites :
    NoReset loaded ∧ ∃ t, step loaded = .next t ∧ field t .e16 ≠ field loaded .e16 := by
  refine ⟨noReset_loaded, ?_⟩
  obtain ⟨t, ht⟩ := next_of_some (r := step loaded) (by decide)
  have h : ((nextOf (step loaded)).map fun t => field t .e16) = some 0x9b#8 := by decide
  rw [ht] at h
  have h' : field t .e16 = 0x9b#8 := Option.some.inj h
  refine ⟨t, ht, ?_⟩
  rw [h']
  decide

theorem witness_OnlySoftwareWritesChangeFields :
    NoReset (withMoves [.csrRead]) ∧ (∃ t, step (withMoves [.csrRead]) = .next t) ∧
    nextMove (withMoves [.csrRead]) ≠ .instruction ∧ ∀ v, nextMove (withMoves [.csrRead]) ≠ .csrWrite v := by
  have e : nextMove (withMoves [.csrRead]) = .csrRead := rfl
  refine ⟨fun i => ?_, next_of_some (by decide), ?_, fun v => ?_⟩ <;> rw [e] <;> intro h <;> cases h

theorem witness_ParametersNeverChange : ∃ t, step (withMoves [.hart inputs]) = .next t := next_of_some (by decide)

theorem witness_OnlyStoresChangeMemory : (∃ t, step loaded = .next t) ∧ ¬ StoresBytes (nextMove loaded) := by
  refine ⟨next_of_some (by decide), ?_⟩
  have e : nextMove loaded = .instruction := by decide
  rw [e]
  rintro ⟨_, _, h | h⟩ <;> cases h

theorem witness_HartMoveKeepsAllStoredFields :
    (withMoves [.hart inputs]).params.smpmp = true ∧ (withMoves [.hart inputs]).moves = .hart inputs :: [] := by decide

/-- Both clauses: a read and a write. -/
theorem witness_BareReadAndWriteEvents :
    ready.params.smpmp = true ∧ (withMoves [.csrRead]).moves = .csrRead :: [] ∧
    (withMoves [.csrWrite 0x9b#64]).moves = .csrWrite 0x9b#64 :: [] := by decide

theorem witness_StepRunsTheDecodedInstruction :
    loaded.params.smpmp = true ∧ nextMove loaded = .instruction ∧ pcAligned loaded = true ∧
    gate loaded .fetch loaded.mode (fetchAddr loaded 0) 4 = .allowed ∧
    loaded.memory.read (fetchAddr loaded 0) = some 0x73#8 ∧ loaded.memory.read (fetchAddr loaded 1) = some 0x93#8 ∧
    loaded.memory.read (fetchAddr loaded 2) = some 0x42#8 ∧ loaded.memory.read (fetchAddr loaded 3) = some 0x3a#8 ∧
    decode [0x73#8, 0x93#8, 0x42#8, 0x3a#8] = .ok (.csrrw 6 0x3a4#12 5, []) := by decide

theorem witness_PlacedWordRunsNext : ready.params.smpmp = true := by decide

/-- Three bytes of an instruction at `pc`, and the fourth never written. -/
def cutShort : State := { ready with memory := [⟨0x1000, 0x73#8⟩, ⟨0x1001, 0x93#8⟩, ⟨0x1002, 0x42#8⟩] }

/-- `denied` about to fetch under entry 17, locked without `X`. -/
def fetchDenied : State := accessing (.transfer (.fetch 0x80 1)) [⟨0x80, 1, .entry .e17⟩]

/-- `denied` about to load under entry 18, locked without `R`. -/
def loadDenied : State :=
  { accessing (.transfer (.load 0x80 1)) [⟨0x80, 1, .entry .e18⟩] with pmpcfg4 := picture 0x98999b#64 }

/-- The first byte unwritten, and only the last one unwritten. -/
theorem witness_RunEndsWhereNoInstructionStands :
    (ready.params.smpmp = true ∧ nextMove ready = .instruction ∧ pcAligned ready = true ∧
      gate ready .fetch ready.mode (fetchAddr ready 0) 4 = .allowed ∧ ready.memory.read (fetchAddr ready 0) = none) ∧
    (gate cutShort .fetch cutShort.mode (fetchAddr cutShort 0) 4 = .allowed ∧
      cutShort.memory.read (fetchAddr cutShort 2) = some 0x42#8 ∧
      cutShort.memory.read (fetchAddr cutShort 3) = none) := by
  decide

/-- A fetch and a load, in each clause: denied by entry 17 (a fetch) and by entry 18 (a load), both locked, in `M`; let
through by no entry. -/
theorem witness_FetchesAndLoadsAreChecked :
    (fetchDenied.params.smpmp = true ∧ fetchDenied.moves = .transfer (.fetch 0x80 1) :: [] ∧
      governing fetchDenied 0x80 1 = some (.entry .e17) ∧ lBit (field fetchDenied .e17) = true ∧
      xBit (field fetchDenied .e17) = false ∧ gate fetchDenied .fetch .M 0x80 1 = .raises (.accessFault .fetch 0x80)) ∧
    (loadDenied.params.smpmp = true ∧ loadDenied.moves = .transfer (.load 0x80 1) :: [] ∧
      governing loadDenied 0x80 1 = some (.entry .e18) ∧ lBit (field loadDenied .e18) = true ∧
      rBit (field loadDenied .e18) = false ∧ gate loadDenied .load .M 0x80 1 = .raises (.accessFault .load 0x80)) ∧
    (∀ k ∈ [AccessKind.fetch, .load], gate (accessing (.transfer (.load 0x80 1)) []) k .M 0x80 1 = .allowed) ∧
    (governing (accessing (.transfer (.load 0x80 1)) [⟨0x80, 1, .entry .e17⟩]) 0x80 1 = some (.entry .e17) ∧
      rBit (field denied .e17) = true) := by
  decide

/-- `ready` asked for this check in `M`. -/
def checking (n : Entry) (k : AccessKind) : State := withMoves [.pmpEntryCheck n k .M 0x80]

/-- The ways through, `A = OFF`, unlocked in `M`, permitted, and the way of the fault. -/
theorem witness_PmpEntryCheckEvent :
    ((checking .e17 .load).params.smpmp = true ∧
      (checking .e17 .load).moves = .pmpEntryCheck .e17 .load .M 0x80 :: [] ∧
      rBit (field (checking .e17 .load) .e17) = true) ∧
    aMode (field (checking .e23 .fetch) .e23) = .off ∧ lBit (field (checking .e16 .amo) .e16) = false ∧
    (aMode (field (checking .e17 .store) .e17) ≠ .off ∧ lBit (field (checking .e17 .store) .e17) = true ∧
      wBit (field (checking .e17 .store) .e17) = false) := by
  decide

theorem witness_MatchingMoveReplacesTheInputs :
    ready.params.smpmp = true ∧ (withMoves [.matching [⟨0x80, 1, .entry .e16⟩]]).moves =
      .matching [⟨0x80, 1, .entry .e16⟩] :: [] := by decide

/-- The word `3A400073`, which the spec's decoder vectors refuse. -/
def undecodable : State := ready.withFetchWord 32 0x3a400073

theorem witness_UndecodableWordIsRefused :
    (undecodable.params.smpmp = true ∧ nextMove undecodable = .instruction ∧ pcAligned undecodable = true ∧
      gate undecodable .fetch undecodable.mode (fetchAddr undecodable 0) 4 = .allowed ∧
      undecodable.memory.read (fetchAddr undecodable 0) = some 0x73#8 ∧
      undecodable.memory.read (fetchAddr undecodable 1) = some 0x00#8 ∧
      undecodable.memory.read (fetchAddr undecodable 2) = some 0x40#8 ∧
      undecodable.memory.read (fetchAddr undecodable 3) = some 0x3a#8) ∧
    ∀ i, decodeWord 0x3a400073#32 ≠ .ok i := by
  refine ⟨by decide, fun i h => ?_⟩
  have e : decodeWord 0x3a400073#32 = .error (.notCsrFunct3 0#3) := by decide
  rw [e] at h
  cases h

/-- A hart at this `pc`, with the compressed extension or without. -/
def standingAt (pc : Word) (compressed : Bool) : State :=
  { ready with pc := pc, params := { paramsOf 0 with compressed := compressed } }

/-- A `pc` 2 past a 4-byte boundary without the compressed extension, and an odd one with it. -/
theorem witness_MisalignedPcFaults :
    ∀ s ∈ [standingAt 0x1002#64 false, standingAt 0x1003#64 true],
      s.params.smpmp = true ∧ nextMove s = .instruction ∧ fetchAddr s 0 % 4 ≠ 0 ∧
      (s.params.compressed = true → fetchAddr s 0 % 2 ≠ 0) := by
  decide

end Sys2Proof.Tests
end

section
/-! PROOFS of the family 10_state: a field that is not implemented reads 0 and stays 0 (R27). -/

namespace Sys2Proof.Machine

/-- `IMPL`, the granularity and the guards are constant over every instruction (R4, R6, R7). -/
theorem exec_params {i : Instr} {s t : State} (h : exec i s = .next t) : t.params = s.params := by
  obtain ⟨-, -, rfl⟩ := exec_next h
  exact (csrUpdate_done s i.rd (offerOf i s)).frame.params

/-- The parameters are constant over every move, reset included (R100 draws the fields alone). -/
theorem doMove_params {m : Move} {s t : State} (h : doMove m s = .next t) : t.params = s.params := by
  obtain ⟨-, _, -, he⟩ | ⟨_, -, rfl⟩ | ⟨_, -, rfl⟩ | ⟨-, -, rfl⟩ | ⟨_, -, -, rfl⟩ | ⟨_, _, _, _, -, -, rfl⟩ |
    ⟨_, -, rfl | ⟨_, _, rfl⟩⟩ | ⟨_, -, rfl⟩ := doMove_cases h
  · exact exec_params he
  all_goals simp

/-- The parameters are constant over every step (R4, R6, R7). -/
theorem step_params {s t : State} (h : step s = .next t) : t.params = s.params :=
  doMove_params (s := setMoves s s.moves.tail) (step_next h).2

/-- Settles O13: a field that `IMPL` marks absent reads 0 in any state, and neither a write nor a step changes `IMPL`. -/
theorem readOnlyFieldIsAlwaysZero : Obligations.ReadOnlyFieldIsAlwaysZero := by
  intro s n himpl
  have stays_zero : ∀ t : State, t.params = s.params → field t n = 0x00#8 := fun t hp =>
    field_readOnly (hp ▸ himpl)
  exact ⟨stays_zero s rfl, fun v => stays_zero _ (csrWrite_params s v), fun t ht => stays_zero t (step_params ht)⟩

end Sys2Proof.Machine
end

section
/-! PROOFS of the family 20_memory: an entry with `A = OFF` matches, governs and checks nothing, and its lock still holds
(R44, R45, R47). -/

namespace Sys2Proof.Machine

/-- An entry with `A = OFF` cannot match (R44, R47). -/
theorem governorHolds_off {s : State} {n : Entry} (hoff : aMode (field s n) = .off) :
    governorHolds s (.entry n) = false := by
  simp [governorHolds, hoff]

/-- What matches an access can match at all (R44). -/
theorem governorHolds_of_matchesAccess {s : State} {g : Governor} {addr len : Nat}
    (h : matchesAccess s g addr len = true) : governorHolds s g = true :=
  (Bool.and_eq_true_iff.1 h).1

/-- What governs an access stands in a row for that access and can match it (R45). -/
theorem governing_some {s : State} {g : Governor} {addr len : Nat} (h : governing s addr len = some g) :
    ⟨addr, len, g⟩ ∈ s.matchRows ∧ governorHolds s g = true := by
  obtain ⟨⟨a, l, g'⟩, hfind, rfl⟩ := Option.map_eq_some_iff.1 h
  have hmem := List.mem_of_find?_eq_some hfind
  have hrow := List.find?_some hfind
  simp only [Bool.and_eq_true, beq_iff_eq] at hrow
  obtain ⟨⟨rfl, rfl⟩, hholds⟩ := hrow
  exact ⟨hmem, hholds⟩

/-- Nothing is checked against an entry with `A = OFF` (R47). -/
theorem entryVerdict_off {s : State} {n : Entry} (hoff : aMode (field s n) = .off) (kind : AccessKind) (mode : Mode)
    (addr : Nat) : entryVerdict s n kind mode addr = .allowed :=
  if_pos hoff

/-- A locked field is kept by every `CsrWrite` (R24, R30). -/
theorem field_csrWrite_locked {s : State} {n : Entry} (hl : lBit (field s n) = true) (v : Word) :
    field (csrWrite s v) n = field s n := by
  rw [field_csrWrite, newField_locked hl]

/-- Settles O33: what matches or governs an access holds as a governor, which an entry with `A = OFF` does not; the lock
is a test on `L` alone. -/
theorem offEntryGovernsNothingButStillLocks : Obligations.OffEntryGovernsNothingButStillLocks := by
  intro s n hoff
  have hholds : governorHolds s (.entry n) ≠ true := by simp [governorHolds_off hoff]
  refine ⟨fun addr len => ⟨?_, ?_⟩, entryVerdict_off hoff, field_csrWrite_locked⟩
  · exact Bool.eq_false_iff.2 fun hmatch => hholds (governorHolds_of_matchesAccess hmatch)
  · exact fun hgov => hholds (governing_some hgov).2

end Sys2Proof.Machine
end

section
/-! PROOFS of the family 30_encoding: the decoder accepts the words of the table's rows and no others (R64, R66), and the
bits of a field value with the masks that test them (R62). -/

namespace Sys2Proof

/-! ### Words and their parts -/

/-- A word is settled by its five parts (R64). -/
theorem instrWord_eq_iff {v w : InstrWord} :
    v = w ↔ v.extractLsb' 0 7 = w.extractLsb' 0 7 ∧ v.extractLsb' 7 5 = w.extractLsb' 7 5 ∧
      v.extractLsb' 12 3 = w.extractLsb' 12 3 ∧ v.extractLsb' 15 5 = w.extractLsb' 15 5 ∧
      v.extractLsb' 20 12 = w.extractLsb' 20 12 := by
  refine ⟨by rintro rfl; simp, ?_⟩
  simp only [← BitVec.toNat_inj, BitVec.extractLsb'_toNat, Nat.shiftRight_eq_div_pow]
  omega

/-- The word assembled from parts is the one that has them (R64). -/
theorem eq_assemble_iff {w : InstrWord} {csr : CsrAddr} {src : BitVec 5} {f : BitVec 3} {rd : RegIdx} :
    w = assemble csr src f rd ↔ w.extractLsb' 0 7 = systemOpcode ∧ w.extractLsb' 7 5 = bitsOfReg rd ∧
      w.extractLsb' 12 3 = f ∧ w.extractLsb' 15 5 = src ∧ w.extractLsb' 20 12 = csr := by
  rw [instrWord_eq_iff, assemble_opcode, assemble_rd, assemble_funct3, assemble_src, assemble_csr]

/-! ### The mask and match columns -/

@[simp] theorem and_opcodeMask (b : BitVec 7) : b &&& 0x7f#7 = b := BitVec.and_allOnes

@[simp] theorem and_funct3Mask (b : BitVec 3) : b &&& 0x7#3 = b := BitVec.and_allOnes

@[simp] theorem and_csrAddrMask (b : CsrAddr) : b &&& 0xfff#12 = b := BitVec.and_allOnes

/-- The generic mask of R66 keeps `opcode` and `funct3` and clears the rest. -/
theorem and_genericMask_eq_iff {w : InstrWord} {f : BitVec 3} :
    w &&& 0x0000707f#32 = assemble 0 0 f 0 ↔ w.extractLsb' 0 7 = systemOpcode ∧ w.extractLsb' 12 3 = f := by
  simp [eq_assemble_iff, BitVec.extractLsb'_and, bitsOfReg]

/-- The mask of R66 for one register keeps `csr` as well. -/
theorem and_csrMask_eq_iff {w : InstrWord} {csr : CsrAddr} {f : BitVec 3} :
    w &&& 0xfff0707f#32 = assemble csr 0 f 0 ↔
      w.extractLsb' 0 7 = systemOpcode ∧ w.extractLsb' 12 3 = f ∧ w.extractLsb' 20 12 = csr := by
  simp [eq_assemble_iff, BitVec.extractLsb'_and, bitsOfReg]

/-! ### The decoder -/

/-- Decoding an instruction's word gives it back (R64). -/
@[simp] theorem decodeWord_encode (i : Instr) : decodeWord (encode i) = .ok i := by
  cases i <;> simp [decodeWord, encode, assemble_opcode, assemble_rd, assemble_funct3, assemble_src, assemble_csr]

/-- The word is outside SYSTEM, or its `funct3` is 0 or 4: it matches no row of R66. -/
def MatchesNoRow (w : InstrWord) : Prop :=
  w.extractLsb' 0 7 ≠ systemOpcode ∨ w.extractLsb' 12 3 = 0#3 ∨ w.extractLsb' 12 3 = 4#3

/-- A word that matches no row decodes to nothing (R66). -/
theorem MatchesNoRow.decodeWord_ne_ok {w : InstrWord} (h : MatchesNoRow w) (i : Instr) : decodeWord w ≠ .ok i := by
  by_cases hop : w.extractLsb' 0 7 = systemOpcode
  · rcases h.resolve_left (not_not.2 hop) with hf | hf <;> simp [decodeWord, hop, hf]
  · simp [decodeWord, hop]

/-- Any other word is the word of an instruction (R64, R66). -/
theorem exists_encode_eq {w : InstrWord} (h : ¬ MatchesNoRow w) : ∃ i, encode i = w := by
  simp only [MatchesNoRow, not_or, ne_eq, not_not] at h
  obtain ⟨hop, h0, h4⟩ := h
  have hw : w = assemble (w.extractLsb' 20 12) (w.extractLsb' 15 5) (w.extractLsb' 12 3)
      (regOfBits (w.extractLsb' 7 5)) := eq_assemble_iff.2 ⟨hop, rfl, rfl, rfl, rfl⟩
  have rows : ∀ f : BitVec 3, f ≠ 0#3 → f ≠ 4#3 → f = 1#3 ∨ f = 2#3 ∨ f = 3#3 ∨ f = 5#3 ∨ f = 6#3 ∨ f = 7#3 := by
    decide
  rw [hw]
  rcases rows _ h0 h4 with hf | hf | hf | hf | hf | hf <;> rw [hf]
  · exact ⟨.csrrw _ _ (regOfBits _), rfl⟩
  · exact ⟨.csrrs _ _ (regOfBits _), rfl⟩
  · exact ⟨.csrrc _ _ (regOfBits _), rfl⟩
  · exact ⟨.csrrwi _ _ _, rfl⟩
  · exact ⟨.csrrsi _ _ _, rfl⟩
  · exact ⟨.csrrci _ _ _, rfl⟩

/-- The words the decoder rejects (R66). -/
theorem forall_decodeWord_ne_ok_iff {w : InstrWord} : (∀ i, decodeWord w ≠ .ok i) ↔ MatchesNoRow w := by
  refine ⟨fun hrej => ?_, MatchesNoRow.decodeWord_ne_ok⟩
  by_contra hrow
  obtain ⟨i, rfl⟩ := exists_encode_eq hrow
  exact hrej i (decodeWord_encode i)

/-- A word decodes to an instruction exactly if it is that instruction's word (R64). -/
theorem decodeWord_eq_ok_iff {w : InstrWord} {i : Instr} : decodeWord w = .ok i ↔ w = encode i := by
  refine ⟨fun h => ?_, by rintro rfl; exact decodeWord_encode i⟩
  obtain ⟨j, rfl⟩ := exists_encode_eq fun hno => hno.decodeWord_ne_ok i h
  rw [decodeWord_encode] at h
  rw [Except.ok.inj h]

/-! ### The rows of the table

A row is given by its constructor `mk`, the bits of its `rs1` or `uimm` operand, and its `funct3`. -/

section
variable {α : Type} {mk : RegIdx → CsrAddr → α → Instr} {bits : α → BitVec 5} {f : BitVec 3}

/-- The words of a row, with no condition on `rd` and the last operand. -/
theorem exists_decodeWord_row_iff (hbits : bits.Surjective)
    (hrow : ∀ rd csr a, encode (mk rd csr a) = assemble csr (bits a) f rd) (w : InstrWord) (csr : CsrAddr) :
    (∃ rd a, decodeWord w = .ok (mk rd csr a)) ↔
      w.extractLsb' 0 7 = systemOpcode ∧ w.extractLsb' 12 3 = f ∧ w.extractLsb' 20 12 = csr := by
  simp only [decodeWord_eq_ok_iff, hrow, eq_assemble_iff]
  constructor
  · rintro ⟨rd, a, hop, -, hf, -, hcsr⟩
    exact ⟨hop, hf, hcsr⟩
  · rintro ⟨hop, hf, hcsr⟩
    obtain ⟨a, ha⟩ := hbits (w.extractLsb' 15 5)
    exact ⟨regOfBits (w.extractLsb' 7 5), a, hop, rfl, hf, ha.symm, hcsr⟩

/-- Mask and match of a row for any CSR (R66). -/
theorem genericRow_iff (hbits : bits.Surjective)
    (hrow : ∀ rd csr a, encode (mk rd csr a) = assemble csr (bits a) f rd) (w : InstrWord) :
    w &&& 0x0000707f#32 = assemble 0 0 f 0 ↔ ∃ rd csr a, decodeWord w = .ok (mk rd csr a) := by
  rw [exists_comm, and_genericMask_eq_iff]
  simp [exists_decodeWord_row_iff hbits hrow]

/-- Mask and match of a row for one CSR (R66). -/
theorem csrRow_iff (hbits : bits.Surjective)
    (hrow : ∀ rd csr a, encode (mk rd csr a) = assemble csr (bits a) f rd) (w : InstrWord) (csr : CsrAddr) :
    w &&& 0xfff0707f#32 = assemble csr 0 f 0 ↔ ∃ rd a, decodeWord w = .ok (mk rd csr a) := by
  rw [exists_decodeWord_row_iff hbits hrow, and_csrMask_eq_iff]

end

theorem bitsOfReg_surjective : bitsOfReg.Surjective := fun b => ⟨regOfBits b, rfl⟩

/-- Settles O3: each column's mask tests exactly the parts that single out a row, six rows for any CSR and the same six
for `pmpcfg4`. -/
theorem decoderAcceptsExactlyTheTableRows : Obligations.DecoderAcceptsExactlyTheTableRows := by
  intro w
  have reg := bitsOfReg_surjective
  have imm : (id : BitVec 5 → BitVec 5).Surjective := Function.surjective_id
  refine ⟨?_, ?_, ?_, ?_, ?_, ?_, ?_, ?_, ?_, ?_, ?_, ?_, forall_decodeWord_ne_ok_iff⟩
  · exact genericRow_iff (mk := .csrrw) reg (fun _ _ _ => rfl) w
  · exact genericRow_iff (mk := .csrrs) reg (fun _ _ _ => rfl) w
  · exact genericRow_iff (mk := .csrrc) reg (fun _ _ _ => rfl) w
  · exact genericRow_iff (mk := .csrrwi) imm (fun _ _ _ => rfl) w
  · exact genericRow_iff (mk := .csrrsi) imm (fun _ _ _ => rfl) w
  · exact genericRow_iff (mk := .csrrci) imm (fun _ _ _ => rfl) w
  · exact csrRow_iff (mk := .csrrw) reg (fun _ _ _ => rfl) w pmpcfg4Addr
  · exact csrRow_iff (mk := .csrrs) reg (fun _ _ _ => rfl) w pmpcfg4Addr
  · exact csrRow_iff (mk := .csrrc) reg (fun _ _ _ => rfl) w pmpcfg4Addr
  · exact csrRow_iff (mk := .csrrwi) imm (fun _ _ _ => rfl) w pmpcfg4Addr
  · exact csrRow_iff (mk := .csrrsi) imm (fun _ _ _ => rfl) w pmpcfg4Addr
  · exact csrRow_iff (mk := .csrrci) imm (fun _ _ _ => rfl) w pmpcfg4Addr

namespace Machine

/-! ### One field value -/

/-- The two bits that stand for a mode (R22, R62). -/
def AMode.bits : AMode → BitVec 2
  | .off => 0#2
  | .tor => 1#2
  | .na4 => 2#2
  | .napot => 3#2

/-- A field is in a mode exactly if its `A` is that mode's bits (R62). -/
theorem aMode_eq_iff (v : Byte) (a : AMode) : aMode v = a ↔ aBits v = a.bits := by
  have values : ∀ b : BitVec 2, b = 0#2 ∨ b = 1#2 ∨ b = 2#2 ∨ b = 3#2 := by decide
  rcases values (aBits v) with h | h | h | h <;> cases a <;> simp [aMode, AMode.bits, h]

/-- The test on `R` as a mask and as a bit (R62). -/
theorem mask_r (v : Byte) : v &&& 0x01#8 = 0#8 ↔ rBit v = false := by revert v; decide

/-- The test on `W` as a mask and as a bit (R62). -/
theorem mask_w (v : Byte) : v &&& 0x02#8 = 0x02#8 ↔ wBit v = true := by revert v; decide

/-- The test that `A` is not NA4, as a mask and as a mode (R62). -/
theorem mask_na4 (v : Byte) : v &&& 0x18#8 ≠ 0x10#8 ↔ aMode v ≠ .na4 := by
  rw [mask_a, Ne, Ne, aMode_eq_iff, AMode.bits]

/-- Settles O7: the parts are the bits R62 names, and each mask is the test of its part. -/
theorem fieldValueEncoding : Obligations.FieldValueEncoding := by
  intro v
  exact ⟨⟨rfl, rfl, rfl, rfl, rfl⟩, aMode_eq_iff v .off, aMode_eq_iff v .tor, aMode_eq_iff v .na4,
    aMode_eq_iff v .napot, mask_l v, mask_r v, mask_w v, mask_na4 v⟩

end Machine

end Sys2Proof
end

section
/-! PROOFS of the family 40_csr_access: what `WriteField` accepts (R72), and what `CsrWrite` changes and leaves (R71). -/

namespace Sys2Proof.Machine

/-! ### WriteField -/

/-- The fields a guard stands on (R72). -/
theorem guarded_iff (p : Params) (n : Entry) :
    guarded p n = true ↔ n = .e21 ∨ n = .e22 ∨ n = .e23 ∨ (n = .e20 ∧ p.pmp20XlenGuard = true) := by
  cases n <;> simp [guarded]

/-- The guard's test on `xlen()` as a test on `MXL` (R3). -/
theorem xlen_ne_64_iff (m : Mxl) : xlen m ≠ 64 ↔ m ≠ .mxl1 := by
  cases m <;> decide

/-- Settles O8: the five refusals of R72 all keep the old field, so they are one test, and its negation, each mask read
as the bit it tests, is the acceptance. -/
theorem writeFieldAcceptsOrKeeps : Obligations.WriteFieldAcceptsOrKeeps := by
  intro p m n old new
  simp only [writeField, ← ite_or]
  rw [← ite_not]
  refine if_congr ?_ rfl rfl
  rw [guarded_iff, xlen_ne_64_iff, mask_l, mask_rw, mask_a]
  simp only [not_or, not_and_or, not_not, ne_eq, Bool.not_eq_false, Bool.not_eq_true]

/-! ### CsrWrite -/

/-- A field whose slice exists takes its slice (R71, first case). -/
theorem newField_of_sliceExists {m : Mxl} {n : Entry} (hs : sliceExists m n = true) (p : Params) (old : Byte)
    (v : Word) : newField p m n old v = writeField p m n old (slice n v) :=
  if_pos hs

/-- A field without a slice takes 0 where the write still reaches it (R71, second case). -/
theorem newField_of_unguarded {p : Params} {m : Mxl} {n : Entry} (hs : ¬ sliceExists m n = true)
    (hu : n = .e20 ∧ p.pmp20XlenGuard = false) (old : Byte) (v : Word) :
    newField p m n old v = writeField p m n old 0x00#8 := by
  rw [newField, if_neg hs, if_pos hu]

/-- Any other field is not reached (R71, third case). -/
theorem newField_of_unreached {p : Params} {m : Mxl} {n : Entry} (hs : ¬ sliceExists m n = true)
    (hu : ¬ (n = .e20 ∧ p.pmp20XlenGuard = false)) (old : Byte) (v : Word) : newField p m n old v = old := by
  rw [newField, if_neg hs, if_neg hu]

/-- A slice exists exactly if its last bit lies inside the register (R12, R61). -/
theorem sliceExists_iff (m : Mxl) (n : Entry) : sliceExists m n = true ↔ fieldLsb n + 7 < xlen m :=
  decide_eq_true_iff

/-- `CsrWrite` stays inside the register (R71). -/
theorem csrFrame_csrWrite (s : State) (v : Word) : CsrFrame s (csrWrite s v) where
  params := rfl
  mode := rfl
  mxl := rfl
  memory _ := rfl
  matchRows := rfl
  moves := rfl
  draws := rfl
  lastRead := rfl

/-- A write after which every field reads as before is no change: `field` shows the stored value of an implemented field,
and no write reaches the stored value of any other (R27). -/
theorem csrWrite_eq_self {s : State} {v : Word} (h : ∀ n, field (csrWrite s v) n = field s n) : csrWrite s v = s := by
  have stored : (csrWrite s v).pmpcfg4 = s.pmpcfg4 := PerEntry.ext_get fun n => by
    cases himpl : s.params.impl.get n
    · rw [csrWrite_pmpcfg4, PerEntry.get_ofFn, newField_readOnly himpl]
    · calc (csrWrite s v).pmpcfg4.get n = field (csrWrite s v) n := (field_impl (s := csrWrite s v) himpl).symm
        _ = field s n := h n
        _ = s.pmpcfg4.get n := field_impl himpl
  calc csrWrite s v = { s with pmpcfg4 := (csrWrite s v).pmpcfg4 } := rfl
    _ = s := by rw [stored]

/-- Settles O10: field by field the write is `newField`, whose three cases are those of R71. -/
theorem csrWriteUpdatesEachFieldFromTheOldState : Obligations.CsrWriteUpdatesEachFieldFromTheOldState := by
  intro s v
  simp only [← sliceExists_iff]
  refine ⟨fun n hs => ?_, fun n hs h20 hguard => ?_, fun n hs hu => ?_, csrFrame_csrWrite s v, csrWrite_pc s v,
    readX_congr (csrWrite_mxl s v) (csrWrite_x s v), csrWrite_eq_self⟩
  · rw [field_csrWrite, newField_of_sliceExists hs]
  · rw [field_csrWrite, newField_of_unguarded hs ⟨h20, hguard⟩]
  · rw [field_csrWrite, newField_of_unreached hs hu]

end Sys2Proof.Machine
end

section
/-! PROOFS of the family other, encoding: an instruction's word, and its bytes in memory, decode to it (R64, R66). -/

namespace Sys2Proof

/-- The decoder takes a word from its four bytes and leaves the bytes after them (R64). -/
theorem decode_bytesOfWord {w : InstrWord} {i : Instr} (h : decodeWord w = .ok i) (rest : List Byte) :
    decode (bytesOfWord w ++ rest) = .ok (i, rest) := by
  simp [decode, bytesOfWord, Machine.wordOfBytes_bytesOfWord, h]

/-- Settles O1: the bytes put together are the word, and the word has the parts its row gives it. -/
theorem decodeOfEncodeIsTheInstruction : Obligations.DecodeOfEncodeIsTheInstruction :=
  fun i => decode_bytesOfWord (decodeWord_encode i)

/-- Settles O2: the words that decode to an instruction are its encoding alone. -/
theorem encodeOfDecodeIsTheWord : Obligations.EncodeOfDecodeIsTheWord :=
  fun _ _ h => (decodeWord_eq_ok_iff.1 h).symm

/-- Settles O4: nine fixed words, evaluated. -/
theorem specWordsDecode : Obligations.SpecWordsDecode := by
  unfold Obligations.SpecWordsDecode
  decide

end Sys2Proof
end

section
/-! PROOFS of the family other, the register: what a read shows, and what a write takes or keeps (R12 to R28, R70 to
R80). -/

namespace Sys2Proof.Machine

/-! ### Reading -/

/-- With `MXL = 1` every field has its slice (R12). -/
theorem sliceExists_mxl1 (n : Entry) : sliceExists .mxl1 n = true := by cases n <;> rfl

/-- A field inside the `xlen()` bits is its slice of the value read (R70). -/
theorem slice_csrRead {s : State} {n : Entry} (h : sliceExists s.mxl n = true) : slice n (csrRead s) = field s n := by
  unfold csrRead
  cases hm : s.mxl
  · rw [hm] at h
    simp only [slice_append4]
    cases n with
    | e16 | e17 | e18 | e19 => rfl
    | e20 | e21 | e22 | e23 => simp [sliceExists, fieldLsb, Entry.index, xlen] at h
  · simp only [slice_append8]
    cases n <;> rfl

/-- The value read fits in `xlen()` bits (R70). -/
theorem csrRead_toNat_lt (s : State) : (csrRead s).toNat < 2 ^ xlen s.mxl := by
  rw [← trunc_csrRead, trunc_toNat]
  exact Nat.mod_lt _ (Nat.two_pow_pos _)

/-- Settles O5: each field's slice is the field, and what is read has been cut to `xlen()` bits. -/
theorem csrReadShowsFieldsAtTheirLocations : Obligations.CsrReadShowsFieldsAtTheirLocations :=
  fun s => ⟨fun _ => slice_csrRead, csrRead_toNat_lt s⟩

/-- A bit of a slice is a bit of the register value, the slice's place higher (R61). -/
theorem slice_getLsbD (n : Entry) (v : Word) {i : Nat} (hi : i < 8) :
    (slice n v).getLsbD i = v.getLsbD (fieldLsb n + i) := by
  simp [slice, hi]

/-- The parts of a slice stand at their places in the field, from the slice's place on (R13). -/
theorem partsAt_slice (v : Word) (n : Entry) :
    PartsAt v (slice n v) (fieldLsb n + 7) (fieldLsb n + 5) (fieldLsb n + 3) (fieldLsb n + 2) (fieldLsb n + 1)
      (fieldLsb n) := by
  have pair : ∀ i, i + 2 ≤ 8 → v.extractLsb' (fieldLsb n + i) 2 = (slice n v).extractLsb' i 2 := by
    intro i hi
    ext j hj
    simp [slice, show i + j < 8 by omega, Nat.add_assoc]
  exact ⟨(slice_getLsbD n v (by omega)).symm, pair 5 (by omega), pair 3 (by omega),
    (slice_getLsbD n v (by omega)).symm, (slice_getLsbD n v (by omega)).symm,
    (slice_getLsbD n v (i := 0) (by omega)).symm⟩

/-- Settles O6: each field is its slice of the value read, and the printed bits are the slice's place and the parts'
places in a field. -/
theorem subFieldsStandAtThePrintedBits : Obligations.SubFieldsStandAtThePrintedBits := by
  intro s hm
  have parts : ∀ n, PartsAt (csrRead s) (field s n) (fieldLsb n + 7) (fieldLsb n + 5) (fieldLsb n + 3)
      (fieldLsb n + 2) (fieldLsb n + 1) (fieldLsb n) := fun n => by
    rw [← slice_csrRead (hm ▸ sliceExists_mxl1 n)]
    exact partsAt_slice _ n
  exact ⟨parts .e16, parts .e17, parts .e18, parts .e19, parts .e20, parts .e21, parts .e22, parts .e23⟩

/-- A register whose fields are all 0 reads 0. -/
theorem csrRead_eq_zero {s : State} (h : ∀ n, field s n = 0x00#8) : csrRead s = 0#64 := by
  unfold csrRead
  cases s.mxl <;> simp [h]

/-! ### Legal values -/

theorem legal_iff (g : Nat) (v : Byte) :
    legal g v = true ↔ ¬ (rBit v = false ∧ wBit v = true) ∧ (g < 2 ∨ aBits v ≠ 2#2) := by
  cases hr : rBit v <;> cases hw : wBit v <;> simp [legal, hr, hw]

/-- Two granularities stand for all (R28). -/
theorem legal_eq_legal_of_granularity (g : Nat) : legal g = if g < 2 then legal 0 else legal 2 := by
  funext v
  split <;> simp [legal, *]

/-- Settles O17: the count for one granularity on each side of 2. -/
theorem legalValueCounts : Obligations.LegalValueCounts := by
  intro g
  rw [legal_eq_legal_of_granularity g]
  split
  · rfl
  · rfl

/-! ### What a write takes -/

/-- When a write is accepted, each refusal of R72 said by the part of the model that decides it. -/
theorem writeField_eq_ite (p : Params) (m : Mxl) (n : Entry) (old new : Byte) :
    writeField p m n old new =
      if p.impl.get n = true ∧ (guarded p n = true → m = .mxl1) ∧ lBit old = false ∧ legal p.granularity new = true
      then (new &&& 0x9f#8) ||| (old &&& 0x60#8) else old := by
  rw [writeFieldAcceptsOrKeeps p m n old new]
  refine if_congr ?_ rfl rfl
  rw [← guarded_iff, legal_iff, not_and_not_right]

/-- `L` of an accepted value is the new one's (R72). -/
theorem lBit_accepted (new old : Byte) : lBit ((new &&& 0x9f#8) ||| (old &&& 0x60#8)) = lBit new := by
  simp [lBit]

/-- `X` of an accepted value is the new one's (R72). -/
theorem xBit_accepted (new old : Byte) : xBit ((new &&& 0x9f#8) ||| (old &&& 0x60#8)) = xBit new := by
  simp [xBit]

/-- The guard stands only on fields that have no slice at 32 bits (R12, R72). -/
theorem mxl1_of_guarded {p : Params} {m : Mxl} {n : Entry} (hs : sliceExists m n = true) (hg : guarded p n = true) :
    m = .mxl1 := by
  cases m
  · rcases (guarded_iff p n).1 hg with rfl | rfl | rfl | ⟨rfl, -⟩ <;> cases hs
  · rfl

/-- Where a write of the register is accepted by a field (R71, R72). -/
theorem newField_accepts {p : Params} {m : Mxl} {n : Entry} {old : Byte} {v : Word} (hs : sliceExists m n = true)
    (himpl : p.impl.get n = true) (hunlocked : lBit old = false) (hlegal : legal p.granularity (slice n v) = true) :
    newField p m n old v = (slice n v &&& 0x9f#8) ||| (old &&& 0x60#8) := by
  rw [newField_of_sliceExists hs, writeField_eq_ite, if_pos ⟨himpl, mxl1_of_guarded hs, hunlocked, hlegal⟩]

/-- The four tests D0 prints are one (R73 to R80). -/
theorem sourceWrite_eq (g : Nat) (m : Mxl) (n : Entry) (old new : Byte) :
    sourceWrite g m n old new =
      if ((n = .e21 ∨ n = .e22 ∨ n = .e23) → m = .mxl1) ∧ lBit old = false ∧ legal g new = true then new else old := by
  have hlock : old &&& 0x80#8 = 0x00#8 ↔ lBit old = false := by
    rw [← Bool.not_eq_true, ← mask_l, ne_eq, not_not]
  have hxlen : xlen m = 64 ↔ m = .mxl1 := not_iff_not.1 (xlen_ne_64_iff m)
  simp only [sourceWrite, hlock, hxlen, mask_rw, mask_a, legal_iff, ite_and]

/-- Settles O9: away from C7 the guard is the one printed, so both functions accept the same writes; the model stores the
old bits 6:5. -/
theorem writeFieldRefinesThePrintedFunctions : Obligations.WriteFieldRefinesThePrintedFunctions := by
  intro p m n old new himpl hc7
  have hguard : ((n = .e21 ∨ n = .e22 ∨ n = .e23) → m = .mxl1) ↔ (guarded p n = true → m = .mxl1) := by
    cases n <;> simp [guarded]
    exact fun hg => (hc7 rfl).resolve_right (by simp [hg])
  simp only [writeField_eq_ite, sourceWrite_eq, hguard, himpl, true_and]
  split
  · exact ⟨accepted_and new old 0x9f#8 rfl, rsv_congr (accepted_rsv new old)⟩
  · exact ⟨rfl, rfl⟩

/-- Settles O12: at 32 bits field 20 has no slice and is written with 0, which is legal. -/
theorem unguardedPmp20IsClearedByThirtyTwoBitWrites : Obligations.UnguardedPmp20IsClearedByThirtyTwoBitWrites := by
  intro s v hm hguard himpl
  rw [field_csrWrite]
  split
  case isTrue hlocked => exact newField_locked hlocked v
  case isFalse hunlocked =>
    have hzero : legal s.params.granularity 0x00#8 = true := (legal_iff _ _).2 ⟨by decide, .inr (by decide)⟩
    have hg : guarded s.params .e20 = true → s.mxl = .mxl1 := fun h => absurd (hguard.symm.trans h) (by decide)
    rw [newField_of_unguarded (by rw [hm]; decide) ⟨rfl, hguard⟩, writeField_eq_ite,
      if_pos ⟨himpl, hg, by simpa using hunlocked, hzero⟩]
    simp

/-- Settles O16: an implemented field takes the probe, which shows outside bits 6:5; any other reads 0. -/
theorem probeWriteRevealsImplementation : Obligations.ProbeWriteRevealsImplementation := by
  intro s v n hs hunlocked hlegal hnonzero
  rw [slice_csrRead (s := csrWrite s v) hs]
  cases himpl : s.params.impl.get n
  · simp [field_readOnly (s := csrWrite s v) himpl]
  · rw [field_csrWrite, newField_accepts hs himpl hunlocked hlegal]
    have hshown := accepted_and (slice n v) (field s n) 0x9f#8 rfl
    simp only [reduceCtorEq, iff_false]
    intro hread
    rw [hread] at hshown
    exact hnonzero (by simpa using hshown.symm)

/-! ### What a write keeps -/

@[simp] theorem and_byteMask (b : Byte) : b &&& 0xff#8 = b := BitVec.and_allOnes

/-- A write that agrees with the old value in some bits keeps those bits, accepted or not (R72). -/
theorem writeField_and_eq {old new k : Byte} (h : new &&& k = old &&& k) (p : Params) (m : Mxl) (n : Entry) :
    writeField p m n old new &&& k = old &&& k := by
  rcases writeField_cases p m n old new with hkept | ⟨hnew, -⟩
  · rw [hkept]
  · calc writeField p m n old new &&& k = (new &&& k) &&& 0x9f#8 ||| (old &&& k) &&& 0x60#8 := by
          rw [hnew, or_and_distrib, BitVec.and_assoc, BitVec.and_comm 0x9f#8, ← BitVec.and_assoc, BitVec.and_assoc old,
            BitVec.and_comm 0x60#8, ← BitVec.and_assoc]
      _ = old &&& k := by rw [h, accepted_self]

/-- A write of the register that agrees with a field in some bits keeps those bits, wherever C7 leaves field 20 alone
(R71, R88). -/
theorem newField_and_eq {p : Params} {m : Mxl} {n : Entry} {old k : Byte} {v : Word}
    (hc7 : m = .mxl1 ∨ p.pmp20XlenGuard = true) (h : sliceExists m n = true → slice n v &&& k = old &&& k) :
    newField p m n old v &&& k = old &&& k := by
  by_cases hs : sliceExists m n = true
  · rw [newField_of_sliceExists hs, writeField_and_eq (h hs)]
  · rw [newField_of_unreached hs]
    rintro ⟨-, hguard⟩
    rcases hc7 with rfl | hguard'
    · exact hs (sliceExists_mxl1 n)
    · simp [hguard] at hguard'

theorem newField_eq_old {p : Params} {m : Mxl} {n : Entry} {old : Byte} {v : Word}
    (hc7 : m = .mxl1 ∨ p.pmp20XlenGuard = true) (h : sliceExists m n = true → slice n v = old) :
    newField p m n old v = old := by
  simpa using newField_and_eq (k := 0xff#8) hc7 fun hs => by rw [h hs]

/-- Writing back what was read changes nothing, wherever C7 leaves field 20 alone (R88). -/
theorem csrWrite_csrRead {s : State} (hc7 : s.mxl = .mxl1 ∨ s.params.pmp20XlenGuard = true) :
    csrWrite s (csrRead s) = s :=
  csrWrite_eq_self fun n => by rw [field_csrWrite, newField_eq_old hc7 slice_csrRead]

/-- Settles O14: a field offered its own bits keeps them. -/
theorem writeBackIsTheIdentity : Obligations.WriteBackIsTheIdentity :=
  ⟨fun p m n v => by simpa using writeField_and_eq (k := 0xff#8) (rfl : v &&& _ = v &&& _) p m n,
    fun _ => csrWrite_csrRead⟩

/-- Settles O11: fields 20 to 23 have no slice at 32 bits, and the guard leaves field 20 unreached too. -/
theorem thirtyTwoBitWriteKeepsUpperFields : Obligations.ThirtyTwoBitWriteKeepsUpperFields := by
  intro s v hm hguard
  have kept : ∀ n, ¬ sliceExists .mxl0 n = true → field (csrWrite s v) n = field s n := fun n hs => by
    rw [field_csrWrite, newField_eq_old (.inr hguard)]
    exact fun hs' => absurd (hm ▸ hs') hs
  exact ⟨kept .e20 (by decide), kept .e21 (by decide), kept .e22 (by decide), kept .e23 (by decide)⟩

/-- Settles O15: no field is implemented, so each reads 0 and none takes a write. -/
theorem cfgD1ReadsZeroAndIgnoresWrites : Obligations.CfgD1ReadsZeroAndIgnoresWrites := by
  rintro s v ⟨-, himpl, -⟩
  refine ⟨csrRead_eq_zero fun n => field_readOnly (himpl n), csrWrite_eq_self fun n => ?_⟩
  rw [field_csrWrite, newField_readOnly (himpl n)]

end Sys2Proof.Machine
end

section
/-! PROOFS of the family other, the six instructions: when one completes and with what (R65, R82 to R92). -/

namespace Sys2Proof.Machine

/-! ### How an instruction ends -/

theorem exec_ready {i : Instr} {s : State} (hr : CsrReady s) (hc : i.csr = pmpcfg4Addr) :
    exec i s = .next (csrUpdate s i.rd (offerOf i s)) := by
  rw [exec_eq, csrAccess_ready hr hc]

theorem exec_outsideM {i : Instr} {s : State} (hp : s.params.smpmp = true) (hc : i.csr = pmpcfg4Addr)
    (hM : s.mode ≠ .M) : exec i s = .fault (.illegalInstruction (encode i)) := by
  simp [exec_eq, csrAccess, raise, hp, hc, hM]

/-- An instruction on `pmpcfg4`: R91 outside `M`; in `M` it completes with its offer (R82 to R87, R89). -/
theorem exec_result {i : Instr} {s : State} {offer : Option Word} (hc : i.csr = pmpcfg4Addr)
    (hp : s.params.smpmp = true) (hoffer : offerOf i s = offer) :
    (s.mode ≠ .M → exec i s = .fault (.illegalInstruction (encode i))) ∧
    (s.mode = .M → ∃ t, exec i s = .next t ∧ CsrDone s i.rd offer t) := by
  refine ⟨exec_outsideM hp hc, fun hM => ⟨_, exec_ready ⟨hp, hM⟩ hc, ?_⟩⟩
  rw [hoffer]
  exact csrUpdate_done s i.rd offer

/-- Settles O18: the offer is `x[rs1]` by definition. -/
theorem csrrwResult : Obligations.CsrrwResult := fun _ rd rs1 hp =>
  exec_result (i := .csrrw rd _ rs1) rfl hp rfl

/-- Settles O19: no offer exactly for register number 0. -/
theorem csrrsResult : Obligations.CsrrsResult := fun _ rd rs1 hp =>
  exec_result (i := .csrrs rd _ rs1) rfl hp (if_congr Fin.val_eq_zero_iff rfl rfl)

/-- Settles O20: no offer exactly for register number 0. -/
theorem csrrcResult : Obligations.CsrrcResult := fun _ rd rs1 hp =>
  exec_result (i := .csrrc rd _ rs1) rfl hp (if_congr Fin.val_eq_zero_iff rfl rfl)

/-- Settles O21: the offer is the zero-extended immediate by definition. -/
theorem csrrwiResult : Obligations.CsrrwiResult := fun _ rd u hp =>
  exec_result (i := .csrrwi rd _ u) rfl hp rfl

/-- Settles O22: the offer is the one of R86 by definition. -/
theorem csrrsiResult : Obligations.CsrrsiResult := fun _ rd u hp =>
  exec_result (i := .csrrsi rd _ u) rfl hp rfl

/-- Settles O23: the offer is the one of R87 by definition. -/
theorem csrrciResult : Obligations.CsrrciResult := fun _ rd u hp =>
  exec_result (i := .csrrci rd _ u) rfl hp rfl

/-- Settles O27: of the four ways an instruction ends, the fault needs a mode other than `M`. -/
theorem noInstructionFaultsInModeM : Obligations.NoInstructionFaultsInModeM := by
  intro i s f hM hf
  rw [exec_eq] at hf
  obtain ⟨-, h⟩ | ⟨-, -, h⟩ | ⟨-, -, hM', -⟩ | ⟨-, -, h⟩ := csrAccess_cases i s (csrUpdate s i.rd (offerOf i s))
  · rw [h] at hf; cases hf
  · rw [h] at hf; cases hf
  · exact hM' hM
  · rw [h] at hf; cases hf

/-- Settles O28: the CSR address is looked at before the mode. -/
theorem otherCsrIsRefused : Obligations.OtherCsrIsRefused := by
  intro i s hp hc
  rw [exec_eq, csrAccess, if_neg (by simp [hp]), if_pos hc]

/-- Settles O29: `step` and every instruction look for `Smpmp` first. -/
theorem hartWithoutSmpmpIsRefused : Obligations.HartWithoutSmpmpIsRefused := by
  intro s hp
  exact ⟨if_neg (by simp [hp]), fun i => by rw [exec_eq, csrAccess, if_pos hp]⟩

/-- Settles O30: `pc` advances by 4 modulo a multiple of 4. -/
theorem instructionsKeepPcAligned : Obligations.InstructionsKeepPcAligned := by
  intro i s t h haligned
  obtain ⟨-, -, rfl⟩ := exec_next h
  have hdone := csrUpdate_done s i.rd (offerOf i s)
  rw [fetchAddr_eq] at haligned ⊢
  rw [hdone.pc, hdone.frame.mxl, trunc_toNat, BitVec.toNat_add]
  cases hm : s.mxl <;> simp only [hm, xlen, BitVec.toNat_ofNat] at haligned ⊢ <;> omega

/-- Settles O31: `x[0]` has no storage. -/
theorem x0IsHardwiredZero : Obligations.X0IsHardwiredZero :=
  fun s _ => ⟨readX_zero s, rfl⟩

/-! ### A zero mask -/

/-- `csrrs` with a zero mask writes back what it read, or nothing (R83, R88). -/
theorem writeOffer_offerSet_of_zero {s : State} {rs1 : RegIdx} (hzero : readX s rs1 = 0#64)
    (hc7 : s.mxl = .mxl1 ∨ s.params.pmp20XlenGuard = true) : writeOffer s (offerSet s rs1) = s := by
  unfold offerSet
  split
  · rfl
  · rw [hzero, BitVec.or_zero, writeOffer, csrWrite_csrRead hc7]

/-- `csrrc` with a zero mask writes back what it read, or nothing (R84, R88). -/
theorem writeOffer_offerClear_of_zero {s : State} {rs1 : RegIdx} (hzero : readX s rs1 = 0#64)
    (hc7 : s.mxl = .mxl1 ∨ s.params.pmp20XlenGuard = true) : writeOffer s (offerClear s rs1) = s := by
  unfold offerClear
  split
  · rfl
  · rw [hzero, show csrRead s &&& ~~~0#64 = csrRead s from BitVec.and_allOnes, writeOffer, csrWrite_csrRead hc7]

/-- An offer counts by what its write leaves. -/
theorem csrUpdate_congr {s : State} {o o' : Option Word} (h : writeOffer s o = writeOffer s o') (rd : RegIdx) :
    csrUpdate s rd o = csrUpdate s rd o' := by
  simp only [csrUpdate, h]

/-- Settles O24: both forms leave the register as it was, and `x[0]` is itself a zero mask. -/
theorem zeroMaskActsLikeX0 : Obligations.ZeroMaskActsLikeX0 := by
  intro s rd rs1 hr hzero hc7
  have hx0 := readX_zero s
  constructor <;> rw [exec_ready hr rfl, exec_ready hr rfl]
  · exact congrArg _ (csrUpdate_congr ((writeOffer_offerSet_of_zero hzero hc7).trans
      (writeOffer_offerSet_of_zero hx0 hc7).symm) rd)
  · exact congrArg _ (csrUpdate_congr ((writeOffer_offerClear_of_zero hzero hc7).trans
      (writeOffer_offerClear_of_zero hx0 hc7).symm) rd)

/-! ### The reach of an immediate -/

theorem slice_or (n : Entry) (v w : Word) : slice n (v ||| w) = slice n v ||| slice n w := BitVec.extractLsb'_or

theorem slice_clear (n : Entry) (v w : Word) : slice n (v &&& ~~~w) = slice n v &&& ~~~slice n w := by
  have hinside : fieldLsb n + 7 < 64 := by cases n <;> decide
  ext i hi
  have hbit : fieldLsb n + i < 64 := by omega
  simp [← BitVec.getLsbD_eq_getElem, slice_getLsbD n _ hi, hi, hbit]

/-- An immediate reaches bits 4:0 of field 16 and nothing else (R65). -/
theorem slice_uimmValue (n : Entry) (u : BitVec 5) :
    slice n (uimmValue u) = if n = .e16 then u.setWidth 8 else 0x00#8 := by
  cases n <;> revert u <;> decide

theorem lBit_slice_uimmValue (n : Entry) (u : BitVec 5) : lBit (slice n (uimmValue u)) = false := by
  have hlow : ∀ u : BitVec 5, lBit (u.setWidth 8) = false := by decide
  rw [slice_uimmValue]
  split
  · exact hlow u
  · rfl

theorem offerSetImm_some {s : State} {u : BitVec 5} {v : Word} (h : offerSetImm s u = some v) :
    v = csrRead s ||| uimmValue u := by
  unfold offerSetImm at h
  split at h <;> cases h
  rfl

theorem offerClearImm_some {s : State} {u : BitVec 5} {v : Word} (h : offerClearImm s u = some v) :
    v = csrRead s &&& ~~~uimmValue u := by
  unfold offerClearImm at h
  split at h <;> cases h
  rfl

/-! ### Locks -/

/-- A write sets a lock only if the value written has it (R72). -/
theorem lBit_writeField {p : Params} {m : Mxl} {n : Entry} {old new : Byte}
    (h : lBit (writeField p m n old new) = true) : lBit old = true ∨ lBit new = true := by
  rcases writeField_cases p m n old new with hkept | ⟨hnew, -⟩
  · exact .inl (hkept ▸ h)
  · rw [hnew, lBit_accepted] at h
    exact .inr h

/-- A write of the register sets the lock of a field only if the field's slice has it (R71). -/
theorem lBit_newField {p : Params} {m : Mxl} {n : Entry} {old : Byte} {v : Word}
    (hslice : sliceExists m n = true → lBit (slice n v) = true → lBit old = true)
    (h : lBit (newField p m n old v) = true) : lBit old = true := by
  unfold newField at h
  split at h
  case isTrue hs => exact (lBit_writeField h).elim id (hslice hs)
  case isFalse =>
    split at h
    · exact (lBit_writeField h).resolve_right (by decide)
    · exact h

/-- An instruction whose offer has no lock but those it read sets none. -/
theorem exec_sets_no_lock {i : Instr} {s : State} (hr : CsrReady s) (hc : i.csr = pmpcfg4Addr)
    (hoffer : ∀ v, offerOf i s = some v → ∀ n, lBit (slice n v) = true → lBit (slice n (csrRead s)) = true) :
    ∃ t, exec i s = .next t ∧ ∀ n, lBit (field t n) = true → lBit (field s n) = true := by
  refine ⟨_, exec_ready hr hc, fun n hl => ?_⟩
  rw [(csrUpdate_done s i.rd (offerOf i s)).fields n] at hl
  cases ho : offerOf i s with
  | none => simpa only [ho] using hl
  | some v =>
    simp only [ho] at hl
    exact lBit_newField (fun hs hv => slice_csrRead hs ▸ hoffer v ho n hv) hl

/-- Settles O25: an immediate has no bit where a lock stands, and the set and clear forms offer the locks they read. -/
theorem immediateFormsNeverLock : Obligations.ImmediateFormsNeverLock := by
  intro s rd u hr i hi
  have hu := fun n => lBit_slice_uimmValue n u
  simp only [List.mem_cons, List.not_mem_nil, or_false] at hi
  obtain rfl | rfl | rfl := hi <;> refine exec_sets_no_lock hr rfl fun v hv n hl => ?_
  · cases hv
    rw [hu n] at hl; cases hl
  · rw [offerSetImm_some hv, slice_or, lBit, BitVec.getLsbD_or, Bool.or_eq_true] at hl
    exact hl.resolve_right (Bool.not_eq_true _ ▸ hu n)
  · rw [offerClearImm_some hv, slice_clear, lBit, BitVec.getLsbD_and, Bool.and_eq_true] at hl
    exact hl.1

/-! ### The set and clear forms -/

/-- Setting bits outside a mask keeps the bits under it. -/
theorem or_and_of_disjoint {w k : Byte} (h : w &&& k = 0x00#8) (v : Byte) : (v ||| w) &&& k = v &&& k := by
  rw [or_and_distrib, h, BitVec.or_zero]

/-- Clearing bits outside a mask keeps the bits under it. -/
theorem clear_and_of_disjoint {w k : Byte} (h : w &&& k = 0x00#8) (v : Byte) : (v &&& ~~~w) &&& k = v &&& k := by
  ext i hi
  have hbit := congrArg (·.getLsbD i) h
  simp only [BitVec.getLsbD_and, BitVec.getLsbD_zero, ← BitVec.getLsbD_eq_getElem, BitVec.getLsbD_not] at hbit ⊢
  cases hk : k.getLsbD i <;> simp_all

/-- An instruction keeps the bits of a field that its offer keeps, wherever C7 leaves field 20 alone (R88). -/
theorem csrUpdate_field_and_eq {s : State} {offer : Option Word} {n : Entry} {k : Byte}
    (hc7 : s.mxl = .mxl1 ∨ s.params.pmp20XlenGuard = true)
    (h : ∀ v, offer = some v → slice n v &&& k = slice n (csrRead s) &&& k) (rd : RegIdx) :
    field (csrUpdate s rd offer) n &&& k = field s n &&& k := by
  rw [(csrUpdate_done s rd offer).fields n]
  cases offer with
  | none => rfl
  | some v => exact newField_and_eq hc7 fun hs => slice_csrRead hs ▸ h v rfl

/-- The immediate set and clear forms offer what they read outside the immediate's bits. -/
theorem setClearImm_offer {s : State} {i : Instr} {rd : RegIdx} {csr : CsrAddr} {u : BitVec 5} {n : Entry} {k : Byte}
    {v : Word} (hi : i = .csrrsi rd csr u ∨ i = .csrrci rd csr u) (hk : slice n (uimmValue u) &&& k = 0x00#8)
    (hv : offerOf i s = some v) : slice n v &&& k = slice n (csrRead s) &&& k := by
  obtain rfl | rfl := hi
  · rw [offerSetImm_some hv, slice_or, or_and_of_disjoint hk]
  · rw [offerClearImm_some hv, slice_clear, clear_and_of_disjoint hk]

/-- Settles O26: an immediate has no bit outside bits 4:0 of field 16. -/
theorem immediateSetAndClearReachEntry16Only : Obligations.ImmediateSetAndClearReachEntry16Only := by
  intro s rd u hr hc7 i hi
  have hi : i = .csrrsi rd pmpcfg4Addr u ∨ i = .csrrci rd pmpcfg4Addr u := by
    simpa [pmpcfg4Addr] using hi
  have hc : i.csr = pmpcfg4Addr := by obtain rfl | rfl := hi <;> rfl
  have hlow : ∀ u : BitVec 5, u.setWidth 8 &&& 0xe0#8 = 0x00#8 := by decide
  refine ⟨_, exec_ready hr hc, fun n hn => ?_, ?_⟩
  · have hk : slice n (uimmValue u) &&& 0xff#8 = 0x00#8 := by rw [slice_uimmValue, if_neg hn, and_byteMask]
    simpa using csrUpdate_field_and_eq hc7 (fun v => setClearImm_offer hi hk) i.rd
  · have hk : slice .e16 (uimmValue u) &&& 0xe0#8 = 0x00#8 := by rw [slice_uimmValue, if_pos rfl, hlow]
    exact csrUpdate_field_and_eq hc7 (fun v => setClearImm_offer hi hk) i.rd

end Sys2Proof.Machine
end

section
/-! PROOFS of the family other, the PMP check and the fetch (R42 to R50, R64, R66, R90 to R93, R105). -/

namespace Sys2Proof.Machine

/-! ### The check -/

/-- Where the mode rule does not let an access through, the permission bit of its kind decides (R42, R43). -/
theorem pmpEntryCheck_checked {s : State} {n : Entry} {mode : Mode} (h : mode ≠ .M ∨ lBit (field s n) = true)
    (kind : AccessKind) (addr : Nat) :
    pmpEntryCheck s n kind mode addr =
      if permits (field s n) kind = true then .allowed else .raises (.accessFault kind addr) := by
  split
  case isTrue hp => exact pmpEntryCheck_allowed (.inr hp) addr
  case isFalse hp => exact pmpEntryCheck_denied h (by simpa using hp) addr

/-- Settles O32: the mode rule first, then the bit that `permits` names for each kind. -/
theorem entryCheckFollowsTheTable : Obligations.EntryCheckFollowsTheTable := by
  intro s n mode addr
  refine ⟨fun hM hunlocked kind => pmpEntryCheck_allowed (.inl ⟨hM, hunlocked⟩) addr, fun h => ?_⟩
  have table := fun kind => pmpEntryCheck_checked h kind addr
  exact ⟨table .fetch, table .load, table .store, table .amo⟩

/-- Settles O34: the row that governs is a row that matches. -/
theorem governingImpliesMatching : Obligations.GoverningImpliesMatching := by
  intro s addr len g h
  obtain ⟨hrow, hholds⟩ := governing_some h
  simp [matchesAccess, hholds, hrow]

/-! ### A step that runs an instruction -/

theorem step_of_instruction {s : State} (hp : s.params.smpmp = true) (hm : nextMove s = .instruction) :
    step s = hartStep (setMoves s s.moves.tail) := by
  rw [step, if_pos hp, hm, doMove]

/-- The fetch does not look at the moves to come. -/
theorem fetch_setMoves (s : State) (ms : List Move) : fetch (setMoves s ms) = fetch s := rfl

section
variable {s : State} (hp : s.params.smpmp = true) (hm : nextMove s = .instruction)
include hp hm

theorem step_of_fetch_instr {i : Instr} (h : fetch s = .instr i) : step s = exec i (setMoves s s.moves.tail) := by
  rw [step_of_instruction hp hm, hartStep, fetch_setMoves, h]

theorem step_of_fetch_fault {f : Fault} (h : fetch s = .fault f) : step s = .fault f := by
  rw [step_of_instruction hp hm, hartStep, fetch_setMoves, h]
  rfl

theorem step_of_fetch_refused {r : Refusal} (h : fetch s = .refused r) : step s = .refused r := by
  rw [step_of_instruction hp hm, hartStep, fetch_setMoves, h]

end

/-! ### What a fetch finds -/

theorem fetch_misaligned {s : State} (h : pcAligned s = false) : fetch s = .fault (.pcMisaligned (fetchAddr s 0)) := by
  rw [fetch, if_neg (by simp [h])]

theorem fetch_denied {s : State} {f : Fault} (haligned : pcAligned s = true)
    (hgate : gate s .fetch s.mode (fetchAddr s 0) 4 = .raises f) : fetch s = .fault f := by
  rw [fetch, if_pos haligned, hgate]

section
variable {s : State} (haligned : pcAligned s = true) (hgate : gate s .fetch s.mode (fetchAddr s 0) 4 = .allowed)
include haligned hgate

theorem fetch_endOfRun (h : fetchBytes s = none) : fetch s = .refused (.endOfRun (fetchAddr s 0)) := by
  simp only [fetch, if_pos haligned, hgate, h]

theorem fetch_instr {bs rest : List Byte} {i : Instr} (h : fetchBytes s = some bs) (hd : decode bs = .ok (i, rest)) :
    fetch s = .instr i := by
  simp only [fetch, if_pos haligned, hgate, h, hd]

theorem fetch_undecodable {bs : List Byte} {r : DecodeReject} (h : fetchBytes s = some bs)
    (hd : decode bs = .error r) : fetch s = .refused (.undecodable r) := by
  simp only [fetch, if_pos haligned, hgate, h, hd]

end

theorem fetchBytes_eq_some {s : State} {b0 b1 b2 b3 : Byte} (h0 : s.memory.read (fetchAddr s 0) = some b0)
    (h1 : s.memory.read (fetchAddr s 1) = some b1) (h2 : s.memory.read (fetchAddr s 2) = some b2)
    (h3 : s.memory.read (fetchAddr s 3) = some b3) : fetchBytes s = some [b0, b1, b2, b3] := by
  simp only [fetchBytes, h0, h1, h2, h3]

theorem fetchBytes_eq_none {s : State} {k : Nat} (hk : k < 4) (h : s.memory.read (fetchAddr s k) = none) :
    fetchBytes s = none := by
  unfold fetchBytes
  split
  · interval_cases k <;> simp_all
  · rfl

/-- Settles O59: alignment is the first test of the fetch. -/
theorem misalignedPcFaults : Obligations.MisalignedPcFaults := by
  intro s hp hm h4 h2
  refine step_of_fetch_fault hp hm (fetch_misaligned ?_)
  cases hc : s.params.compressed <;> simp_all [pcAligned]

/-- Settles O35: the entry that governs the fetch decides it, before any byte is read. -/
theorem deniedFetchFaultsBeforeDecoding : Obligations.DeniedFetchFaultsBeforeDecoding := by
  intro s n hp hm haligned hgov hchecked hx
  have hgate : gate s .fetch s.mode (fetchAddr s 0) 4 = .raises (.accessFault .fetch (fetchAddr s 0)) := by
    rw [gate_entry hgov, pmpEntryCheck_denied (kind := .fetch) hchecked hx]
  exact step_of_fetch_fault hp hm (fetch_denied haligned hgate)

/-- Settles O54: one unwritten byte of the four is enough. -/
theorem runEndsWhereNoInstructionStands : Obligations.RunEndsWhereNoInstructionStands :=
  fun _ _ hp hm haligned hgate hk h =>
    step_of_fetch_refused hp hm (fetch_endOfRun haligned hgate (fetchBytes_eq_none hk h))

/-- Settles O52: the fetch finds the four bytes and decodes them. -/
theorem stepRunsTheDecodedInstruction : Obligations.StepRunsTheDecodedInstruction :=
  fun _ _ _ _ _ _ hp hm haligned hgate h0 h1 h2 h3 hd =>
    step_of_fetch_instr hp hm (fetch_instr haligned hgate (fetchBytes_eq_some h0 h1 h2 h3) hd)

/-- Four bytes decode to an error exactly if their word does. -/
theorem decode_eq_error {b0 b1 b2 b3 : Byte} {r : DecodeReject} (h : decodeWord (wordOfBytes b0 b1 b2 b3) = .error r) :
    decode [b0, b1, b2, b3] = .error r := by
  simp only [decode, h]

/-- Settles O58: the decoder's own reason is the refusal's. -/
theorem undecodableWordIsRefused : Obligations.UndecodableWordIsRefused := by
  intro s b0 b1 b2 b3 hp hm haligned hgate h0 h1 h2 h3 hno
  cases hd : decodeWord (wordOfBytes b0 b1 b2 b3) with
  | ok i => exact absurd hd (hno i)
  | error r =>
    exact ⟨r, decode_eq_error hd, step_of_fetch_refused hp hm
      (fetch_undecodable haligned hgate (fetchBytes_eq_some h0 h1 h2 h3) (decode_eq_error hd))⟩

/-! ### A locking write and the next fetch -/

/-- Settles O37: the write is accepted, and the field then shows the lock and no `X`. -/
theorem lockingWriteDeniesTheNextFetch : Obligations.LockingWriteDeniesTheNextFetch := by
  intro s rd rs1 n hr hs himpl hunlocked hlegal hlock hx
  have hdone := csrUpdate_done s rd (offerSwap s rs1)
  have hfield : field (csrUpdate s rd (offerSwap s rs1)) n = _ :=
    (hdone.fields n).trans (newField_accepts hs himpl hunlocked hlegal)
  have hlocked : lBit (field (csrUpdate s rd (offerSwap s rs1)) n) = true := by rw [hfield, lBit_accepted, hlock]
  have hdenied : xBit (field (csrUpdate s rd (offerSwap s rs1)) n) = false := by rw [hfield, xBit_accepted, hx]
  refine ⟨_, exec_ready hr rfl, pmpEntryCheck_denied (kind := .fetch) (.inr hlocked) hdenied,
    fun hm haligned hgov => ?_⟩
  exact deniedFetchFaultsBeforeDecoding _ n (hdone.frame.params ▸ hr.1) hm haligned hgov (.inr hlocked) hdenied

/-! ### A placed word -/

/-- What no row speaks of is let through (R45). -/
theorem gate_of_governing_none {s : State} {addr len : Nat} (h : governing s addr len = none) (kind : AccessKind)
    (mode : Mode) : gate s kind mode addr len = .allowed := by
  simp only [gate, h]

theorem governing_rowsWithoutFetch {s : State} {rows : List MatchRow} {addr : Nat}
    (h : s.matchRows = rowsWithoutFetch rows addr) : governing s addr 4 = none := by
  simp only [governing, h, rowsWithoutFetch, Option.map_eq_none_iff, List.find?_eq_none, List.mem_filter]
  rintro r ⟨-, hr⟩ hfetch
  simp_all

/-- A word placed at `pc` is what the next fetch finds. -/
theorem fetch_withWordAtPc {w : InstrWord} {i : Instr} (h : decodeWord w = .ok i) (s : State) :
    fetch (withWordAtPc s w) = .instr i := by
  have haligned : pcAligned (withWordAtPc s w) = true := pcAligned_of_fetchablePc s
  have hgov : governing (withWordAtPc s w) (fetchAddr (withWordAtPc s w) 0) 4 = none := governing_rowsWithoutFetch rfl
  have hbytes : fetchBytes (withWordAtPc s w) = some (bytesOfWord w) :=
    fetchBytes_placeWord (s := { s with pc := fetchablePc s, moves := [] }) w rfl rfl rfl
  refine fetch_instr (rest := []) haligned (gate_of_governing_none hgov _ _) hbytes ?_
  simpa using decode_bytesOfWord h []

/-- A 32-bit table row is its own word. -/
theorem tableWord_toNat (w : InstrWord) : tableWord 32 w.toNat = w := by
  simp [tableWord, Nat.mod_eq_of_lt w.isLt]

/-- Settles O53: the fetch of the placed word decodes to the instruction, and no move is left to take off the list. -/
theorem placedWordRunsNext : Obligations.PlacedWordRunsNext := by
  intro s i hp
  rw [State.withFetchWord, tableWord_toNat]
  exact step_of_fetch_instr (s := withWordAtPc s (encode i)) hp rfl (fetch_withWordAtPc (decodeWord_encode i) s)

end Sys2Proof.Machine
end

section
/-! PROOFS of the family other, reset: what a draw leaves in a field (R27, R29, R31). -/

namespace Sys2Proof.Machine

theorem resetField_readOnly {p : Params} {n : Entry} (h : p.impl.get n = false) (raw : Byte) (rsv : BitVec 2) :
    resetField p n raw rsv = 0x00#8 := by
  simp [resetField, h]

theorem resetField_impl {p : Params} {n : Entry} (h : p.impl.get n = true) (raw : Byte) (rsv : BitVec 2) :
    resetField p n raw rsv = (legalise p.granularity raw &&& 0x9f#8) ||| (rsv.setWidth 8 <<< 5) :=
  if_pos h

/-- Two drawn bits shifted to 6:5 stand in no other bit (R31). -/
theorem drawn_and (rsv : BitVec 2) : (rsv.setWidth 8 <<< 5 : Byte) &&& 0x60#8 = rsv.setWidth 8 <<< 5 := by
  revert rsv; decide

/-- The drawn reserved bits take bits 6:5 and leave the others (R31). -/
theorem and_or_drawn (v k : Byte) (rsv : BitVec 2) (h : k &&& 0x60#8 = 0#8) :
    ((v &&& 0x9f#8) ||| (rsv.setWidth 8 <<< 5)) &&& k = v &&& k := by
  rw [← drawn_and, accepted_and _ _ _ h]

/-- The reserved bits of a field after reset are the drawn ones (R31). -/
theorem rsvBits_or_drawn (v : Byte) (rsv : BitVec 2) :
    rsvBits ((v &&& 0x9f#8) ||| (rsv.setWidth 8 <<< 5)) = rsv := by
  have hrsv : ∀ r : BitVec 2, rsvBits (r.setWidth 8 <<< 5) = r := by decide
  calc rsvBits ((v &&& 0x9f#8) ||| (rsv.setWidth 8 <<< 5))
      = rsvBits (rsv.setWidth 8 <<< 5) := rsv_congr (by simp [or_and_distrib, BitVec.and_assoc])
    _ = rsv := hrsv rsv

/-- Reset leaves a legal value in an implemented field (R29). -/
theorem legal_resetField {p : Params} {n : Entry} (h : p.impl.get n = true) (raw : Byte) (rsv : BitVec 2) :
    legal p.granularity (resetField p n raw rsv) = true := by
  rw [resetField_impl h, legal_congr _ (and_or_drawn _ 0x1f#8 rsv rfl), legal_legalise]

/-- Settles O38: legality does not look at bits 6:5, which the draw of `RSV_RESET` alone decides. -/
theorem resetFieldsAreLegalOrZero : Obligations.ResetFieldsAreLegalOrZero := by
  intro p n raw rsv
  refine ⟨fun h => resetField_readOnly h raw rsv, fun h => ⟨legal_resetField h raw rsv, ?_⟩⟩
  rw [resetField_impl h, rsvBits_or_drawn]

/-- Settles O39: a legal value is reached by drawing itself and its own reserved bits. -/
theorem resetDrawReachesEveryLegalValue : Obligations.ResetDrawReachesEveryLegalValue := by
  intro p n v himpl hlegal
  have hself : ∀ b : Byte, (b &&& 0x9f#8) ||| ((rsvBits b).setWidth 8 <<< 5) = b := by decide
  refine ⟨v, rsvBits v, ?_⟩
  rw [resetField_impl himpl, legalise, if_pos hlegal, hself]

@[simp] theorem resetFields_get (p : Params) (k : Nat) (n : Entry) :
    (resetFields p k).get n = resetField p n (Config.resetDraw k n) (Config.rsvReset k n) :=
  PerEntry.get_ofFn _ n

end Sys2Proof.Machine
end

section
/-! PROOFS of the family other, the moves that are no instruction (R9, R42 to R47, R70, R71, R100, R101, R105). -/

namespace Sys2Proof.Machine

theorem step_of_move {s : State} {m : Move} {rest : List Move} (hp : s.params.smpmp = true)
    (hmoves : s.moves = m :: rest) : step s = doMove m (setMoves s rest) := by
  simp [step, nextMove, hp, hmoves]

/-! ### The register and the inputs -/

/-- Settles O51: each event is one test of the mode and its operation. -/
theorem bareReadAndWriteEvents : Obligations.BareReadAndWriteEvents :=
  fun _ _ _ hp => ⟨step_of_move hp, step_of_move hp⟩

/-- Settles O57: the move sets the rows. -/
theorem matchingMoveReplacesTheInputs : Obligations.MatchingMoveReplacesTheInputs :=
  fun _ _ _ hp => step_of_move hp

/-! ### The hart and reset -/

theorem getElem_mapRegs (f : Word → Word) (x : Vector Word 31) (k : Nat) (hk : k < 31) :
    (mapRegs f x)[k] = f x[k] := by
  simp [mapRegs]

theorem readX_setHart (s : State) (i : HartInputs) (j : RegIdx) (hj : j.val ≠ 0) :
    readX (setHart s i) j = trunc i.mxl (i.x[j.val - 1]'(by omega)) := by
  rw [readX, dif_neg hj, setHart_mxl]
  simp only [setHart_x, getElem_mapRegs, trunc_trunc]

/-- Settles O50: `setHart` writes the hart's own fields alone. -/
theorem hartMoveKeepsAllStoredFields : Obligations.HartMoveKeepsAllStoredFields := fun _ i _ hp hmoves =>
  ⟨_, step_of_move hp hmoves, rfl, rfl, rfl, rfl, readX_setHart _ i, rfl, rfl, rfl, rfl, rfl⟩

/-- Settles O40: the draw writes the fields and its own number, `setHart` the rest. -/
theorem resetMoveDrawsAfresh : Obligations.ResetMoveDrawsAfresh := fun s i _ hp hmoves =>
  ⟨_, step_of_move hp hmoves, fun n => resetFields_get s.params s.draws n, rfl, rfl, rfl, rfl, readX_setHart _ i, rfl,
    rfl, rfl, rfl, rfl⟩

/-! ### Accesses of the hart -/

/-- A step that checks an access and then makes it: what denies it, and what lets it through (R42, R43, R46). -/
theorem step_checks_access {s : State} {kind : AccessKind} {addr len : Nat} {done : State}
    (hstep : step s = settle (gate s kind s.mode addr len) done) :
    (∀ f, gate s kind s.mode addr len = .raises f → step s = .fault f) ∧
    (∀ n, governing s addr len = some (.entry n) → (s.mode ≠ .M ∨ lBit (field s n) = true) →
      permits (field s n) kind = false → step s = .fault (.accessFault kind addr)) ∧
    ((gate s kind s.mode addr len = .allowed ∨
        ∃ n, governing s addr len = some (.entry n) ∧
          ((s.mode = .M ∧ lBit (field s n) = false) ∨ permits (field s n) kind = true)) →
      step s = .next done) := by
  have hraise : ∀ f, gate s kind s.mode addr len = .raises f → step s = .fault f := fun f h => by
    rw [hstep, h, settle, raise]
  refine ⟨hraise, fun n hgov hchecked hp => hraise _ ?_, fun h => ?_⟩
  · rw [gate_entry hgov, pmpEntryCheck_denied hchecked hp]
  · have hallowed : gate s kind s.mode addr len = .allowed := by
      rcases h with h | ⟨n, hgov, h⟩
      · exact h
      · rw [gate_entry hgov, pmpEntryCheck_allowed h]
    rw [hstep, hallowed, settle]

/-- Settles O55: the move is the check, and goes on to the state it found. -/
theorem fetchesAndLoadsAreChecked : Obligations.FetchesAndLoadsAreChecked := by
  intro s addr len rest hp m hm hmoves
  simp only [List.mem_cons, List.not_mem_nil, or_false] at hm
  rcases hm with rfl | rfl
  · exact step_checks_access (kind := .fetch) (step_of_move hp hmoves)
  · exact step_checks_access (kind := .load) (step_of_move hp hmoves)

theorem Memory.read_writeBytes_outside (m : Memory) {a b : Nat} {data : List Byte}
    (h : b < a ∨ a + data.length ≤ b) : (m.writeBytes a data).read b = m.read b := by
  induction data generalizing m a with
  | nil => rfl
  | cons v vs ih =>
    rw [List.length_cons] at h
    rw [Memory.writeBytes, ih _ (by omega), Memory.read_write, if_neg (by omega)]

theorem Memory.read_writeBytes_inside (m : Memory) (a : Nat) {data : List Byte} {k : Nat} (hk : k < data.length) :
    (m.writeBytes a data).read (a + k) = some data[k] := by
  induction data generalizing m a k with
  | nil => exact absurd hk (Nat.not_lt_zero k)
  | cons v vs ih =>
    rw [Memory.writeBytes]
    cases k with
    | zero => rw [Memory.read_writeBytes_outside _ (by omega), Memory.read_write]; exact if_pos rfl
    | succ k => rw [show a + (k + 1) = a + 1 + k by omega, ih _ _ (Nat.lt_of_succ_lt_succ hk)]; rfl

/-- A store writes its bytes and no others. -/
theorem storeBytes_read (s : State) (addr : Nat) (data : List Byte) :
    (∀ k (h : k < data.length), (storeBytes s addr data).memory.read (addr + k) = some data[k]) ∧
    (∀ a, a < addr ∨ addr + data.length ≤ a → (storeBytes s addr data).memory.read a = s.memory.read a) :=
  ⟨fun _ hk => Memory.read_writeBytes_inside s.memory addr hk, fun _ ha => Memory.read_writeBytes_outside s.memory ha⟩

/-- Settles O36: the move is the check, and goes on to `storeBytes`, which writes the bytes and nothing else. -/
theorem storesAreCheckedThenWriteTheirBytes : Obligations.StoresAreCheckedThenWriteTheirBytes := by
  intro s addr data rest hp m hm hmoves
  have hread := storeBytes_read (setMoves s rest) addr data
  simp only [List.mem_cons, List.not_mem_nil, or_false] at hm
  rcases hm with rfl | rfl
  · obtain ⟨hraises, hdenied, hnext⟩ := step_checks_access (kind := .store) (step_of_move hp hmoves)
    exact ⟨hraises, hdenied, fun h => ⟨_, hnext h, rfl, rfl, hread⟩⟩
  · obtain ⟨hraises, hdenied, hnext⟩ := step_checks_access (kind := .amo) (step_of_move hp hmoves)
    exact ⟨hraises, hdenied, fun h => ⟨_, hnext h, rfl, rfl, hread⟩⟩

/-- The event of a check, for any kind (R46, R47). -/
theorem step_pmpEntryCheck {s : State} {n : Entry} {kind : AccessKind} {mode : Mode} {addr : Nat} {rest : List Move}
    (hp : s.params.smpmp = true) (hmoves : s.moves = .pmpEntryCheck n kind mode addr :: rest) :
    (aMode (field s n) = .off ∨ (mode = .M ∧ lBit (field s n) = false) ∨ permits (field s n) kind = true →
      step s = .next (setMoves s rest)) ∧
    (aMode (field s n) ≠ .off → (mode ≠ .M ∨ lBit (field s n) = true) → permits (field s n) kind = false →
      step s = .fault (.accessFault kind addr)) := by
  have hstep : step s = settle (entryVerdict s n kind mode addr) (setMoves s rest) := step_of_move hp hmoves
  rw [hstep]
  constructor
  · intro h
    have hallowed : entryVerdict s n kind mode addr = .allowed := by
      unfold entryVerdict
      split
      case isTrue => rfl
      case isFalse hon => exact pmpEntryCheck_allowed (h.resolve_left hon) addr
    rw [hallowed, settle]
  · intro hon hchecked hdenied
    rw [entryVerdict, if_neg hon, pmpEntryCheck_denied hchecked hdenied, settle, raise]

/-- Settles O56: each pair of the list is a kind with the bit that `permits` names for it. -/
theorem pmpEntryCheckEvent : Obligations.PmpEntryCheckEvent := by
  intro s n mode addr rest hp k hk hmoves
  simp only [List.mem_cons, List.not_mem_nil, or_false] at hk
  rcases hk with rfl | rfl | rfl | rfl
  · exact step_pmpEntryCheck (kind := .fetch) hp hmoves
  · exact step_pmpEntryCheck (kind := .load) hp hmoves
  · exact step_pmpEntryCheck (kind := .store) hp hmoves
  · exact step_pmpEntryCheck (kind := .amo) hp hmoves

end Sys2Proof.Machine
end

section
/-! PROOFS of the family other, the whole machine: the invariant, and what a step does to a field, the parameters and
memory (R24 to R32, R41). -/

namespace Sys2Proof.Machine

/-! ### The invariant, kept by each operation -/

/-- An accepted value is as legal as the value written, bits 6:5 being free (R28). -/
theorem legal_accepted {g : Nat} {new : Byte} (h : legal g new = true) (old : Byte) :
    legal g ((new &&& 0x9f#8) ||| (old &&& 0x60#8)) = true :=
  (legal_congr g (accepted_and new old 0x1f#8 rfl)).trans h

theorem csrWrite_keeps_inv {s : State} (h : Inv s) (v : Word) : Inv (csrWrite s v) := by
  refine ⟨fun n himpl => ?_, fun n himpl => ?_, h.fits, h.memory⟩ <;> rw [csrWrite_pmpcfg4, PerEntry.get_ofFn]
  · rcases newField_cases s.params s.mxl n (s.pmpcfg4.get n) v with hkept | ⟨new, hnew, -, -, hlegal⟩
    · rw [hkept]; exact h.legal n himpl
    · rw [hnew]; exact legal_accepted hlegal _
  · rw [newField_readOnly (p := s.params) himpl]; exact h.readOnly n himpl

theorem writeX_keeps_inv {s : State} (h : Inv s) (i : RegIdx) (v : Word) : Inv (writeX s i v) := by
  refine ⟨h.legal, h.readOnly, ⟨h.fits.1, fun w hw => ?_⟩, h.memory⟩
  rcases mem_setReg hw with rfl | hw
  · exact trunc_trunc s.mxl v
  · exact h.fits.2 w hw

theorem advancePc_keeps_inv {s : State} (h : Inv s) : Inv (advancePc s) :=
  ⟨h.legal, h.readOnly, ⟨trunc_trunc _ _, h.fits.2⟩, h.memory⟩

theorem csrUpdate_keeps_inv {s : State} (h : Inv s) (rd : RegIdx) (offer : Option Word) :
    Inv (csrUpdate s rd offer) := by
  have hwrite : Inv (writeOffer s offer) := by
    cases offer with
    | none => exact h
    | some v => exact csrWrite_keeps_inv h v
  exact advancePc_keeps_inv (writeX_keeps_inv hwrite rd _)

theorem resetRegister_keeps_inv {s : State} (h : Inv s) : Inv (resetRegister s) := by
  refine ⟨fun n himpl => ?_, fun n himpl => ?_, h.fits, h.memory⟩ <;>
    rw [resetRegister_pmpcfg4, resetFields_get]
  · exact legal_resetField himpl _ _
  · exact resetField_readOnly himpl _ _

theorem setHart_keeps_inv {s : State} (h : Inv s) (i : HartInputs) : Inv (setHart s i) := by
  refine ⟨h.legal, h.readOnly, ⟨trunc_trunc _ _, fun w hw => ?_⟩, h.memory⟩
  obtain ⟨v, rfl⟩ := mem_mapRegs hw
  exact trunc_trunc i.mxl v

theorem doMove_keeps_inv {m : Move} {s t : State} (hs : Inv s) (h : doMove m s = .next t) : Inv t := by
  obtain ⟨-, i, -, he⟩ | ⟨i, -, rfl⟩ | ⟨i, -, rfl⟩ | ⟨-, -, rfl⟩ | ⟨v, -, -, rfl⟩ | ⟨_, _, _, _, -, -, rfl⟩ |
    ⟨_, -, rfl | ⟨a, d, rfl⟩⟩ | ⟨_, -, rfl⟩ := doMove_cases h
  · obtain ⟨-, -, rfl⟩ := exec_next he
    exact csrUpdate_keeps_inv hs i.rd _
  · exact setHart_keeps_inv (resetRegister_keeps_inv hs) i
  · exact setHart_keeps_inv hs i
  · exact ⟨hs.legal, hs.readOnly, hs.fits, hs.memory⟩
  · exact csrWrite_keeps_inv hs v
  · exact hs
  · exact hs
  · exact ⟨hs.legal, hs.readOnly, hs.fits, Memory.wf_writeBytes hs.memory a d⟩
  · exact ⟨hs.legal, hs.readOnly, hs.fits, hs.memory⟩

/-- Settles O41: a step is one move, and each move is built from operations that keep the invariant. -/
theorem everyStepKeepsTheInvariant : Obligations.EveryStepKeepsTheInvariant := fun s _ hs h =>
  doMove_keeps_inv (s := setMoves s s.moves.tail) ⟨hs.legal, hs.readOnly, hs.fits, hs.memory⟩ (step_next h).2

/-- Settles O42: whatever the draws, they leave legal fields; the rest of the reset state is 0 or empty. -/
theorem resetStateMeetsTheInvariant : Obligations.ResetStateMeetsTheInvariant := by
  refine ⟨fun n himpl => ?_, fun n himpl => ?_, ⟨rfl, fun _ _ => rfl⟩, List.Pairwise.nil⟩ <;>
    rw [State.reset, resetFields_get]
  · exact legal_resetField himpl _ _
  · exact resetField_readOnly himpl _ _

/-! ### What a step does to a field -/

/-- Field `n` of `t` is what a write accepted in `s` leaves: in `M`, on an implemented and unlocked field, a legal value
over the old reserved bits (R72, R96). -/
def AcceptedWrite (s t : State) (n : Entry) : Prop :=
  s.mode = .M ∧ s.params.impl.get n = true ∧ lBit (field s n) = false ∧
    ∃ new, legal s.params.granularity new = true ∧ field t n = (new &&& 0x9f#8) ||| (field s n &&& 0x60#8)

/-- A write to the register in `M` keeps a field or is accepted by it. -/
theorem newField_acceptedWrite {s t : State} {n : Entry} {v : Word} (hM : s.mode = .M)
    (h : field t n = newField s.params s.mxl n (field s n) v) : field t n = field s n ∨ AcceptedWrite s t n := by
  rw [AcceptedWrite, h]
  exact (newField_cases s.params s.mxl n (field s n) v).imp_right
    fun ⟨new, hnew, himpl, hunlocked, hlegal⟩ => ⟨hM, himpl, hunlocked, new, hlegal, hnew⟩

theorem exec_field_cases {i : Instr} {s t : State} (h : exec i s = .next t) (n : Entry) :
    field t n = field s n ∨ AcceptedWrite s t n := by
  obtain ⟨⟨-, hM⟩, -, rfl⟩ := exec_next h
  have hfield := (csrUpdate_done s i.rd (offerOf i s)).fields n
  cases hoffer : offerOf i s with
  | none => rw [hoffer] at hfield; exact .inl hfield
  | some v => rw [hoffer] at hfield; exact newField_acceptedWrite hM hfield

theorem doMove_field_cases {m : Move} {s t : State} (hm : ∀ i, m ≠ .reset i) (h : doMove m s = .next t) (n : Entry) :
    field t n = field s n ∨ AcceptedWrite s t n := by
  obtain ⟨-, _, -, he⟩ | ⟨i, rfl, -⟩ | ⟨_, -, rfl⟩ | ⟨-, -, rfl⟩ | ⟨v, -, hM, rfl⟩ | ⟨_, _, _, _, -, -, rfl⟩ |
    ⟨_, -, rfl | ⟨_, _, rfl⟩⟩ | ⟨_, -, rfl⟩ := doMove_cases h
  · exact exec_field_cases he n
  · exact absurd rfl (hm i)
  · exact .inl (field_congr (setHart_params _ _) (setHart_pmpcfg4 _ _) n)
  · exact .inl (field_congr (setLastRead_params _ _) (setLastRead_pmpcfg4 _ _) n)
  · exact newField_acceptedWrite hM (field_csrWrite s v n)
  · exact .inl rfl
  · exact .inl rfl
  · exact .inl (field_congr (storeBytes_params _ _ _) (storeBytes_pmpcfg4 _ _ _) n)
  · exact .inl (field_congr (setMatchRows_params _ _) (setMatchRows_pmpcfg4 _ _) n)

/-- What a step that is no reset can do to a field, said once (R30, R32). -/
theorem step_field_cases {s t : State} (hno : NoReset s) (h : step s = .next t) (n : Entry) :
    field t n = field s n ∨ AcceptedWrite s t n :=
  doMove_field_cases (s := setMoves s s.moves.tail) hno (step_next h).2 n

theorem step_keeps_lockedField {s t : State} {n : Entry} (hl : lBit (field s n) = true) (hno : NoReset s)
    (h : step s = .next t) : field t n = field s n := by
  rcases step_field_cases hno h n with hkept | ⟨-, -, hunlocked, -⟩
  · exact hkept
  · simp [hl] at hunlocked

/-- Settles O43: a field changes by an accepted write alone, and no write to a locked field is accepted. -/
theorem lockedFieldNeverChangesUntilReset : Obligations.LockedFieldNeverChangesUntilReset :=
  fun _ _ _ => step_keeps_lockedField

/-- Settles O44: an accepted write stores the old reserved bits. -/
theorem reservedBitsNeverChangeUntilReset : Obligations.ReservedBitsNeverChangeUntilReset := by
  intro s t n hno h
  rcases step_field_cases hno h n with hkept | ⟨-, -, -, new, -, hnew⟩
  · rw [hkept]
  · rw [hnew]
    exact rsv_congr (accepted_rsv new (field s n))

/-- Settles O45: a field that a step has not kept has taken an accepted write. -/
theorem fieldsChangeOnlyByAcceptedWrites : Obligations.FieldsChangeOnlyByAcceptedWrites :=
  fun _ _ n hno h hchanged => (step_field_cases hno h n).resolve_left hchanged

/-- The check looks at its own entry's field alone (R42, R43). -/
theorem pmpEntryCheck_congr {s t : State} {n : Entry} (h : field t n = field s n) (kind : AccessKind) (mode : Mode)
    (addr : Nat) : pmpEntryCheck t n kind mode addr = pmpEntryCheck s n kind mode addr := by
  simp only [pmpEntryCheck, h]

/-- Settles O47: the check looks at a field that the step keeps. -/
theorem lockedEntryVerdictNeverChanges : Obligations.LockedEntryVerdictNeverChanges :=
  fun _ _ _ hl hno h => pmpEntryCheck_congr (step_keeps_lockedField hl hno h)

/-- Settles O46: of the moves that are no reset, the instruction and `CsrWrite` alone reach the stored fields. -/
theorem onlySoftwareWritesChangeFields : Obligations.OnlySoftwareWritesChangeFields := by
  intro s t hno h hinstr hwrite
  obtain ⟨hm, -⟩ | ⟨i, hm, -⟩ | ⟨_, -, rfl⟩ | ⟨-, -, rfl⟩ | ⟨v, hm, -⟩ | ⟨_, _, _, _, -, -, rfl⟩ |
    ⟨_, -, rfl | ⟨_, _, rfl⟩⟩ | ⟨_, -, rfl⟩ := doMove_cases (step_next h).2
  · exact absurd hm hinstr
  · exact absurd hm (hno i)
  · rfl
  · rfl
  · exact absurd hm (hwrite v)
  all_goals rfl

/-! ### What a step does to the parameters and to memory -/

/-- Settles O48: no operation of any move writes the parameters. -/
theorem parametersNeverChange : Obligations.ParametersNeverChange :=
  fun _ _ => step_params

theorem doMove_keeps_memory {m : Move} {s t : State} (hm : ¬ StoresBytes m) (h : doMove m s = .next t) (a : Nat) :
    t.memory.read a = s.memory.read a := by
  obtain ⟨-, i, -, he⟩ | ⟨_, -, rfl⟩ | ⟨_, -, rfl⟩ | ⟨-, -, rfl⟩ | ⟨_, -, -, rfl⟩ | ⟨_, _, _, _, -, -, rfl⟩ |
    ⟨tr, rfl, -⟩ | ⟨_, -, rfl⟩ := doMove_cases h
  · obtain ⟨-, -, rfl⟩ := exec_next he
    exact (csrUpdate_done s i.rd (offerOf i s)).frame.memory a
  · rfl
  · rfl
  · rfl
  · rfl
  · rfl
  · cases tr with
    | fetch addr len => rw [(settle_next h).2]
    | load addr len => rw [(settle_next h).2]
    | store addr data => exact absurd ⟨addr, data, .inl rfl⟩ hm
    | amo addr data => exact absurd ⟨addr, data, .inr rfl⟩ hm
  · rfl

/-- Settles O49: `storeBytes` is the one operation on memory, and only a store or an AMO calls it. -/
theorem onlyStoresChangeMemory : Obligations.OnlyStoresChangeMemory := fun s _ h hm =>
  doMove_keeps_memory (s := setMoves s s.moves.tail) hm (step_next h).2

end Sys2Proof.Machine
end
